-- ==== Sys2Proof/Word.lean ====
section
/-! DEFINITION. The machine's word types (00_scope.md R9, R12): every value is an unsigned bit field. -/

namespace Sys2Proof

/-- A byte: a general register, a timer, a memory cell, the immediate `kk` (R9: V_WIDTH, TIMER_WIDTH). -/
abbrev Byte := BitVec 8

/-- A 16-bit word: the instruction word, `I`, `pc` and a call-stack slot (R9). -/
abbrev Word := BitVec 16

/-- The 12-bit address field `nnn` (30_encoding.md R72). -/
abbrev Addr := BitVec 12

/-- The index of a general register, V0 to VF (10_state.md R22). -/
abbrev Reg := Fin 16

/-- The index of a key, 0x0 to 0xF (10_state.md R37). -/
abbrev KeyIndex := Fin 16

/-- VF, the flag register: index 15 (10_state.md R23). -/
abbrev VF : Reg := 15

/-- A register index as the four bits of an instruction field (30_encoding.md R72). -/
abbrev nibble (x : Fin 16) : BitVec 4 := BitVec.ofFin x

end Sys2Proof
end

