-- ==== Sys2Proof/Config.lean ====
section
/-! DEFINITION. The implementation parameters the spec leaves open (00_scope.md R10, R11) and the one free
value, the Rand8 oracle (42_alu.md R141). The parameters are plain data: State carries them, no step
changes them, and a statement about every state is a statement about every configuration. -/

namespace Sys2Proof

/-- SYS_MODE: what 0NNN other than 00E0 and 00EE decodes as (R10, decision D2). -/
inductive SysMode where
  | nop
  | unknown
  deriving DecidableEq, Repr

/-- SHIFT_SRC: the register 8XY6 and 8XYE shift (R10, decision D3). -/
inductive ShiftSrc where
  | vx
  | vy
  deriving DecidableEq, Repr

/-- LDST_I_INC: what FX55 and FX65 do to I (R10, decision D5). -/
inductive LdstIInc where
  | none
  | xPlus1
  deriving DecidableEq, Repr

/-- JUMP_OFFSET_REG: the register BNNN adds (R10, decision D6). -/
inductive JumpOffsetReg where
  | v0
  | vx
  deriving DecidableEq, Repr

/-- TIMER_SCALING: a policy of the host, which no rule of the core reads (47_host_operations.md R239). -/
inductive TimerScaling where
  | scaled
  | wallClock
  deriving DecidableEq, Repr

/-- The parameters of R10 that a rule of the core reads. -/
structure Config where
  sysMode       : SysMode
  shiftSrc      : ShiftSrc
  logicVfReset  : Bool
  ldstIInc      : LdstIInc
  jumpOffsetReg : JumpOffsetReg
  fontBase      : Addr
  fontData      : Vector Byte 80
  snapCap       : Nat
  deriving DecidableEq, Repr

/-- The legal values of the parameters that a type does not already bound (R10):
FONT_BASE + 80 <= 0x200 and SNAP_CAP >= 1. -/
def Config.legal (cfg : Config) : Bool :=
  decide (cfg.fontBase.toNat + 80 ≤ 0x200) && decide (1 ≤ cfg.snapCap)

/-- The parameters of R10 that are the host's (R8, R239): no rule of the core reads them, so State does not
hold them. BASELINE_IPF >= 1 is in its type; R10 leaves its value open. -/
structure HostParams where
  baselineIpf  : { n : Nat // 1 ≤ n }
  timerScaling : TimerScaling
  deriving DecidableEq, Repr

/-- The Rand8 oracle (R10, R141): the byte drawn by the n-th draw. It has no body, so no proof can
learn a value of it: a claim holds for every draw (notes/assumptions/4.md). -/
opaque Config.rand8 : Nat → Byte

end Sys2Proof
end

