-- ==== Sys2Proof/Syntax.lean ====
section
/-! DEFINITION. The 35 instructions of 30_encoding.md R76, one constructor for each row of
spec/opcode_table.json. The operands have the widths of the fields of R72. -/

namespace Sys2Proof

/-- One decoded instruction. Each constructor's docstring gives its pattern and its rule. -/
inductive Instr where
  /-- 0NNN, `SYS nnn` (R100). -/
  | sys (nnn : Addr)
  /-- 00E0, `CLS` (R201). -/
  | cls
  /-- 00EE, `RET` (R101). -/
  | ret
  /-- 1NNN, `JP nnn` (R102). -/
  | jp (nnn : Addr)
  /-- 2NNN, `CALL nnn` (R103). -/
  | call (nnn : Addr)
  /-- 3XKK, `SE Vx, kk` (R105). -/
  | seImm (x : Reg) (kk : Byte)
  /-- 4XKK, `SNE Vx, kk` (R106). -/
  | sneImm (x : Reg) (kk : Byte)
  /-- 5XY0, `SE Vx, Vy` (R107). -/
  | seReg (x y : Reg)
  /-- 6XKK, `LD Vx, kk` (R130). -/
  | ldImm (x : Reg) (kk : Byte)
  /-- 7XKK, `ADD Vx, kk` (R131). -/
  | addImm (x : Reg) (kk : Byte)
  /-- 8XY0, `LD Vx, Vy` (R132). -/
  | ldReg (x y : Reg)
  /-- 8XY1, `OR Vx, Vy` (R133). -/
  | orReg (x y : Reg)
  /-- 8XY2, `AND Vx, Vy` (R134). -/
  | andReg (x y : Reg)
  /-- 8XY3, `XOR Vx, Vy` (R135). -/
  | xorReg (x y : Reg)
  /-- 8XY4, `ADD Vx, Vy` (R136). -/
  | addReg (x y : Reg)
  /-- 8XY5, `SUB Vx, Vy` (R137). -/
  | sub (x y : Reg)
  /-- 8XY6, `SHR Vx, Vy` (R138). -/
  | shr (x y : Reg)
  /-- 8XY7, `SUBN Vx, Vy` (R139). -/
  | subn (x y : Reg)
  /-- 8XYE, `SHL Vx, Vy` (R140). -/
  | shl (x y : Reg)
  /-- 9XY0, `SNE Vx, Vy` (R108). -/
  | sneReg (x y : Reg)
  /-- ANNN, `LD I, nnn` (R160). -/
  | ldI (nnn : Addr)
  /-- BNNN, `JP V0, nnn` (R104). -/
  | jpV0 (nnn : Addr)
  /-- CXKK, `RND Vx, kk` (R141). -/
  | rnd (x : Reg) (kk : Byte)
  /-- DXYN, `DRW Vx, Vy, n` (R203). -/
  | drw (x y : Reg) (n : Fin 16)
  /-- EX9E, `SKP Vx` (R180). -/
  | skp (x : Reg)
  /-- EXA1, `SKNP Vx` (R181). -/
  | sknp (x : Reg)
  /-- FX07, `LD Vx, DT` (R182). -/
  | ldVxDt (x : Reg)
  /-- FX0A, `LD Vx, K` (R183). -/
  | ldVxK (x : Reg)
  /-- FX15, `LD DT, Vx` (R184). -/
  | ldDtVx (x : Reg)
  /-- FX18, `LD ST, Vx` (R185). -/
  | ldStVx (x : Reg)
  /-- FX1E, `ADD I, Vx` (R161). -/
  | addI (x : Reg)
  /-- FX29, `LD F, Vx` (R162). -/
  | ldF (x : Reg)
  /-- FX33, `LD B, Vx` (R163). -/
  | ldB (x : Reg)
  /-- FX55, `LD [I], Vx` (R164). -/
  | ldMemVx (x : Reg)
  /-- FX65, `LD Vx, [I]` (R165). -/
  | ldVxMem (x : Reg)
  deriving DecidableEq, Repr

end Sys2Proof
end

