-- ==== Sys2Proof/Decode.lean ====
section
/-! DEFINITION. The decoder of 30_encoding.md R75, total on every word and every byte list, and the encoder
of R73, R76 and R88 beside it. -/

namespace Sys2Proof

/-! ### The instruction fields (R71, R72) -/

/-- `op`, w[15:12] (R72). -/
def opField (w : Word) : BitVec 4 := w.extractLsb' 12 4

/-- `x`, w[11:8], the index of V[x] (R72). -/
def xField (w : Word) : Reg := (w.extractLsb' 8 4).toFin

/-- `y`, w[7:4], the index of V[y] (R72). -/
def yField (w : Word) : Reg := (w.extractLsb' 4 4).toFin

/-- `n`, w[3:0], the sprite height or the sub-function (R72). -/
def nField (w : Word) : Fin 16 := (w.extractLsb' 0 4).toFin

/-- `kk`, w[7:0], the immediate byte or the sub-function (R72). -/
def kkField (w : Word) : Byte := w.extractLsb' 0 8

/-- `nnn`, w[11:0], the address (R72). -/
def nnnField (w : Word) : Addr := w.extractLsb' 0 12

/-! ### Decode (R75) -/

/-- Why bytes are not an instruction. -/
inductive DecodeError where
  /-- The word is `Unknown(w)` of R75: none of the 35 patterns. -/
  | unknown (w : Word)
  /-- Fewer than the two bytes of a word (R70). The step never meets it: its fetch reads two bytes. -/
  | truncated
  deriving DecidableEq, Repr

/-- High nibble 0x0: the two fixed words, then SYS under SYS_MODE = nop (R75). -/
def decodeGroup0 (mode : SysMode) (w : Word) : Except DecodeError Instr :=
  if w = 0x00E0#16 then .ok .cls
  else if w = 0x00EE#16 then .ok .ret
  else match mode with
    | .nop => .ok (.sys (nnnField w))
    | .unknown => .error (.unknown w)

/-- High nibble 0x8, the arithmetic group, by the low nibble (R75). -/
def decodeGroup8 (w : Word) : Except DecodeError Instr :=
  match (nField w).val with
  | 0x0 => .ok (.ldReg (xField w) (yField w))
  | 0x1 => .ok (.orReg (xField w) (yField w))
  | 0x2 => .ok (.andReg (xField w) (yField w))
  | 0x3 => .ok (.xorReg (xField w) (yField w))
  | 0x4 => .ok (.addReg (xField w) (yField w))
  | 0x5 => .ok (.sub (xField w) (yField w))
  | 0x6 => .ok (.shr (xField w) (yField w))
  | 0x7 => .ok (.subn (xField w) (yField w))
  | 0xE => .ok (.shl (xField w) (yField w))
  | _ => .error (.unknown w)

/-- High nibble 0xE, the key skips, by the low byte (R75). -/
def decodeGroupE (w : Word) : Except DecodeError Instr :=
  match (kkField w).toNat with
  | 0x9E => .ok (.skp (xField w))
  | 0xA1 => .ok (.sknp (xField w))
  | _ => .error (.unknown w)

/-- High nibble 0xF, the timer and memory group, by the low byte (R75). -/
def decodeGroupF (w : Word) : Except DecodeError Instr :=
  match (kkField w).toNat with
  | 0x07 => .ok (.ldVxDt (xField w))
  | 0x0A => .ok (.ldVxK (xField w))
  | 0x15 => .ok (.ldDtVx (xField w))
  | 0x18 => .ok (.ldStVx (xField w))
  | 0x1E => .ok (.addI (xField w))
  | 0x29 => .ok (.ldF (xField w))
  | 0x33 => .ok (.ldB (xField w))
  | 0x55 => .ok (.ldMemVx (xField w))
  | 0x65 => .ok (.ldVxMem (xField w))
  | _ => .error (.unknown w)

/-- `Decode(w)` of R75, dispatching first on the high nibble. -/
def decode (mode : SysMode) (w : Word) : Except DecodeError Instr :=
  match (opField w).toNat with
  | 0x0 => decodeGroup0 mode w
  | 0x1 => .ok (.jp (nnnField w))
  | 0x2 => .ok (.call (nnnField w))
  | 0x3 => .ok (.seImm (xField w) (kkField w))
  | 0x4 => .ok (.sneImm (xField w) (kkField w))
  | 0x5 => if nField w = 0 then .ok (.seReg (xField w) (yField w)) else .error (.unknown w)
  | 0x6 => .ok (.ldImm (xField w) (kkField w))
  | 0x7 => .ok (.addImm (xField w) (kkField w))
  | 0x8 => decodeGroup8 w
  | 0x9 => if nField w = 0 then .ok (.sneReg (xField w) (yField w)) else .error (.unknown w)
  | 0xA => .ok (.ldI (nnnField w))
  | 0xB => .ok (.jpV0 (nnnField w))
  | 0xC => .ok (.rnd (xField w) (kkField w))
  | 0xD => .ok (.drw (xField w) (yField w) (nField w))
  | 0xE => decodeGroupE w
  | 0xF => decodeGroupF w
  | _ => .error (.unknown w)

/-- The word of two bytes in memory order: the first byte is bits [15:8] (20_memory.md R52). -/
def wordOfBytes (hi lo : Byte) : Word := hi ++ lo

/-- The high byte of a word, stored at the lower address (R52). -/
def hiByte (w : Word) : Byte := w.extractLsb' 8 8

/-- The low byte of a word, stored at the higher address (R52). -/
def loByte (w : Word) : Byte := w.extractLsb' 0 8

/-- Decode the first instruction of a byte list and return what follows it (R52, R70). -/
def decodeBytes (mode : SysMode) : List Byte → Except DecodeError (Instr × List Byte)
  | hi :: lo :: rest => (decode mode (wordOfBytes hi lo)).map fun i => (i, rest)
  | [_] => .error .truncated
  | [] => .error .truncated

/-- The instruction word of a table row's bits: the first 16-bit word of `w` cut to `nbits` bits. -/
def tableWord (nbits w : Nat) : Word := BitVec.ofNat 16 (w % 2 ^ nbits)

/-- What the decoder reads from a row of spec/opcode_table.json whose bits are `w`, laid out as memory
holds it (R52), under the default SYS_MODE = nop (notes/assumptions/13.md). -/
def decodeTableWord (nbits w : Nat) : Option Instr :=
  match decodeBytes .nop [hiByte (tableWord nbits w), loByte (tableWord nbits w)] with
  | .ok (i, _) => some i
  | .error _ => none

/-! ### Encode (R73, R76, R88) -/

/-- Format NNN: `oooo aaaa aaaa aaaa` (R73). -/
def encodeNNN (op : BitVec 4) (nnn : Addr) : Word := op ++ nnn

/-- Format XKK: `oooo xxxx kkkk kkkk` (R73); with a fixed low byte it is format X-SUB. -/
def encodeXKK (op : BitVec 4) (x : Reg) (kk : Byte) : Word := op ++ nibble x ++ kk

/-- Format XYN: `oooo xxxx yyyy nnnn` (R73); with a fixed low nibble it is format XY-SUB. -/
def encodeXYN (op : BitVec 4) (x y n : Fin 16) : Word := op ++ nibble x ++ nibble y ++ nibble n

/-- The one word of an instruction (R88), from the patterns of R76. -/
def encode : Instr → Word
  | .sys nnn => encodeNNN 0x0 nnn
  | .cls => 0x00E0
  | .ret => 0x00EE
  | .jp nnn => encodeNNN 0x1 nnn
  | .call nnn => encodeNNN 0x2 nnn
  | .seImm x kk => encodeXKK 0x3 x kk
  | .sneImm x kk => encodeXKK 0x4 x kk
  | .seReg x y => encodeXYN 0x5 x y 0x0
  | .ldImm x kk => encodeXKK 0x6 x kk
  | .addImm x kk => encodeXKK 0x7 x kk
  | .ldReg x y => encodeXYN 0x8 x y 0x0
  | .orReg x y => encodeXYN 0x8 x y 0x1
  | .andReg x y => encodeXYN 0x8 x y 0x2
  | .xorReg x y => encodeXYN 0x8 x y 0x3
  | .addReg x y => encodeXYN 0x8 x y 0x4
  | .sub x y => encodeXYN 0x8 x y 0x5
  | .shr x y => encodeXYN 0x8 x y 0x6
  | .subn x y => encodeXYN 0x8 x y 0x7
  | .shl x y => encodeXYN 0x8 x y 0xE
  | .sneReg x y => encodeXYN 0x9 x y 0x0
  | .ldI nnn => encodeNNN 0xA nnn
  | .jpV0 nnn => encodeNNN 0xB nnn
  | .rnd x kk => encodeXKK 0xC x kk
  | .drw x y n => encodeXYN 0xD x y n
  | .skp x => encodeXKK 0xE x 0x9E
  | .sknp x => encodeXKK 0xE x 0xA1
  | .ldVxDt x => encodeXKK 0xF x 0x07
  | .ldVxK x => encodeXKK 0xF x 0x0A
  | .ldDtVx x => encodeXKK 0xF x 0x15
  | .ldStVx x => encodeXKK 0xF x 0x18
  | .addI x => encodeXKK 0xF x 0x1E
  | .ldF x => encodeXKK 0xF x 0x29
  | .ldB x => encodeXKK 0xF x 0x33
  | .ldMemVx x => encodeXKK 0xF x 0x55
  | .ldVxMem x => encodeXKK 0xF x 0x65

end Sys2Proof
end

