-- ==== Sys2Proof/Machine/Defaults.lean ====
section
/-! DEFINITION. The default values of the parameters (00_scope.md R10, R11) and the default font (10_state.md
R36). -/

namespace Sys2Proof

/-- The default FONT_DATA: sixteen glyphs of five bytes, four glyphs to a part (10_state.md R36). -/
def standardFont : Vector Byte 80 :=
  (#v[0xF0, 0x90, 0x90, 0x90, 0xF0,
      0x20, 0x60, 0x20, 0x20, 0x70,
      0xF0, 0x10, 0xF0, 0x80, 0xF0,
      0xF0, 0x10, 0xF0, 0x10, 0xF0] : Vector Byte 20) ++
  (#v[0x90, 0x90, 0xF0, 0x10, 0x10,
      0xF0, 0x80, 0xF0, 0x10, 0xF0,
      0xF0, 0x80, 0xF0, 0x90, 0xF0,
      0xF0, 0x10, 0x20, 0x40, 0x40] : Vector Byte 20) ++
  (#v[0xF0, 0x90, 0xF0, 0x90, 0xF0,
      0xF0, 0x90, 0xF0, 0x10, 0xF0,
      0xF0, 0x90, 0xF0, 0x90, 0x90,
      0xE0, 0x90, 0xE0, 0x90, 0xE0] : Vector Byte 20) ++
  (#v[0xF0, 0x80, 0x80, 0x80, 0xF0,
      0xE0, 0x90, 0x90, 0x90, 0xE0,
      0xF0, 0x80, 0xF0, 0x80, 0xF0,
      0xF0, 0x80, 0xF0, 0x80, 0x80] : Vector Byte 20)

/-- The default configuration (R10, R11). -/
def Config.default : Config where
  sysMode       := .nop
  shiftSrc      := .vx
  logicVfReset  := false
  ldstIInc      := .none
  jumpOffsetReg := .v0
  fontBase      := 0x000
  fontData      := standardFont
  snapCap       := 300

/-- The default TIMER_SCALING (R10, decision D25). -/
def TimerScaling.default : TimerScaling := .scaled

/-- The host's default parameters for a baseline rate, which R10 leaves OPEN. -/
def HostParams.default (baselineIpf : { n : Nat // 1 ≤ n }) : HostParams where
  baselineIpf  := baselineIpf
  timerScaling := TimerScaling.default

end Sys2Proof
end

