-- ==== Sys2Proof/Machine/Display.lean ====
section
/-! DEFINITION. The Display Buffer: 64x32 monochrome bits by row and column (10_state.md R35, 45_display.md R200). -/

namespace Sys2Proof.Machine

/-- Disp: 32 rows of 64 bits, row 0 at the top and column 0 at the left (R35); `true` is a set pixel. -/
abbrev Display := Vector (Vector Bool 64) 32

/-- All 2048 bits 0 (R41, R201). -/
def Display.blank : Display := Vector.replicate 32 (Vector.replicate 64 false)

/-- `Disp[r][c]` (00_scope.md R13). -/
def Display.pixel (d : Display) (r : Fin 32) (c : Fin 64) : Bool := d[r.val][c.val]

/-- `Disp[r][c] <- Disp[r][c] ^ 1` (R203). -/
def Display.toggle (d : Display) (r : Fin 32) (c : Fin 64) : Display :=
  d.set r.val (d[r.val].set c.val (!d[r.val][c.val]))

end Sys2Proof.Machine
end

