-- ==== Sys2Proof/Machine/Memory.lean ====
section
/-! DEFINITION. Mem as plain data: its canonical form, one byte's read and write, and the image `load`
builds (20_memory.md R50, R58; 70_reset_and_hazards.md R281). The bounds checks of R55 and R56 are in
Machine/Ops.lean. -/

namespace Sys2Proof.Machine

/-- Mem (R34, R50): the cells that do not read as `Memory.unlisted`, by rising address. -/
abbrev Memory := List Host.Cell

/-- What an address with no cell reads as: the 0x00 that `load` first writes everywhere (R281,
notes/assumptions/2.md). -/
abbrev Memory.unlisted : Byte := 0x00

/-- The canonical form from address `lo` up: addresses strictly rising, at most 0xFFF (R9: MEM_SIZE), and no cell
equal to `Memory.unlisted`. -/
def Memory.wfFrom (lo : Nat) : Memory → Bool
  | [] => true
  | (a, b) :: m => decide (lo ≤ a) && decide (a ≤ 0xFFF) && (b != Memory.unlisted) && wfFrom (a + 1) m

/-- The canonical form of a memory. -/
def Memory.wf (m : Memory) : Bool := Memory.wfFrom 0 m

/-- The byte at an address. -/
def Memory.byteAt : Memory → Nat → Byte
  | [], _ => Memory.unlisted
  | (a', b) :: m, a => if a = a' then b else Memory.byteAt m a

/-- The memory with one byte stored, in canonical form again. -/
def Memory.put (a : Nat) (b : Byte) : Memory → Memory
  | [] => if b = Memory.unlisted then [] else [(a, b)]
  | (a', b') :: m =>
    if a < a' then (if b = Memory.unlisted then (a', b') :: m else (a, b) :: (a', b') :: m)
    else if a = a' then (if b = Memory.unlisted then m else (a, b) :: m)
    else (a', b') :: Memory.put a b m

/-- The memory with bytes stored at consecutive addresses from `a` up. -/
def Memory.putBytes (a : Nat) : List Byte → Memory → Memory
  | [], m => m
  | b :: bs, m => Memory.putBytes (a + 1) bs (Memory.put a b m)

/-- Mem after `load(rom)`: all 0x00, then FONT_DATA at FONT_BASE, then the ROM at 0x200 (R281). -/
def Memory.image (cfg : Config) (rom : List Byte) : Memory :=
  Memory.putBytes 0x200 rom (Memory.putBytes cfg.fontBase.toNat cfg.fontData.toList [])

end Sys2Proof.Machine
end

