-- ==== Sys2Proof/Machine/State.lean ====
section
/-! DEFINITION. The state of the block (10_state.md R20): the machine state, the snapshot manager's state and
the speed multiplier, with the configuration and the free-value counter the model adds; the errors and
refusals a step or a host operation can end in (60_exceptions.md R250); and the state after reset (R41). -/

namespace Sys2Proof.Machine

/-- The machine state (R20, first part): what the source calls CPU State, Memory, Display Buffer and Input
State, and exactly what a Snapshot copies (47_host_operations.md R230). -/
structure MachineState where
  /-- V0 to VF (R22). -/
  v     : Vector Byte 16
  /-- The index register I (R25). -/
  i     : Word
  /-- The program counter (R26). -/
  pc    : Word
  /-- The call-stack slots, the stale ones included (R28). -/
  stack : Vector Word 16
  /-- The call-stack depth, 0 to 16 (R28). -/
  sp    : Fin 17
  /-- The delay timer (R33). -/
  dt    : Byte
  /-- The sound timer (R33). -/
  st    : Byte
  /-- The 4096 bytes of memory (R34). -/
  mem   : Memory
  /-- The display buffer (R35). -/
  disp  : Display
  /-- The key states; `true` is pressed (R37). -/
  key   : Vector Bool 16
  deriving DecidableEq, Repr

/-- A snapshot: a copy of the machine state tagged with a frame index (R230). -/
structure Snapshot where
  ms    : MachineState
  frame : Nat
  deriving DecidableEq, Repr

/-- The whole block after a successful load: the two parts of R20, and two fields of the model's own. -/
structure State where
  /-- The machine state (R20). -/
  ms       : MachineState
  /-- The snapshot buffer, oldest first (R231, R232). -/
  snapbuf  : List Snapshot
  /-- The next frame index (R236). -/
  frameCtr : Nat
  /-- The speed multiplier (R237). -/
  speedK   : Nat
  /-- MODEL'S OWN: the parameters of 00_scope.md R10, which nothing changes (notes/assumptions/1.md). -/
  cfg      : Config
  /-- MODEL'S OWN: how many bytes were drawn from the Rand8 oracle (R141, notes/assumptions/4.md). -/
  draws    : Nat
  deriving DecidableEq, Repr

/-- The errors of R250. A failing operation changes no state (R251), so a fault carries none. -/
inductive Fault where
  /-- `ExecError::UnknownOpcode`: raised by a step whose word decodes as Unknown (R252). SAFE: the spec's
  own error. -/
  | unknownOpcode (word : Word)
  /-- `ExecError::StackOverflow`: raised by CALL with sp = 16 (R253). SAFE: the spec's own error. -/
  | stackOverflow
  /-- `ExecError::StackUnderflow`: raised by RET with sp = 0 (R254). SAFE: the spec's own error. -/
  | stackUnderflow
  /-- `ExecError::InvalidMemoryAccess`: raised by a step for an address above 0xFFF, an index register
  above 0xFFF, or a pc or return address outside [0x200, 0xFFE] (R255). SAFE: the spec's own error. -/
  | invalidMemoryAccess (address : Nat)
  /-- `LoadError::RomTooLarge`: raised by the host's `load` (R256), never by a step. SAFE: the spec's own
  error. -/
  | romTooLarge
  /-- `RewindError::BufferEmpty`: raised by the host's `rewind` (R257), never by a step. SAFE: the spec's
  own error. -/
  | bufferEmpty
  deriving DecidableEq, Repr

/-- Why there is no answer at all. A step after a load never ends in one. -/
inductive Refusal where
  /-- An instruction without a meaning; no arm of exec raises it. SAFE: the run stops. -/
  | notModelled (mnemonic : String)
  /-- A host operation other than `load` before the first successful load (R42, R223). SAFE: the spec's
  own refusal. -/
  | noMachine
  /-- `set_key` with an index outside 0..15 (R225). SAFE: the spec's own refusal. -/
  | keyIndexOutOfRange (index : Nat)
  /-- `set_speed(0)` (R237). SAFE: the spec's own refusal. -/
  | zeroMultiplier
  deriving DecidableEq, Repr

/-- The machine state `load(rom)` leaves (R41, 70_reset_and_hazards.md R280). -/
def MachineState.afterLoad (cfg : Config) (rom : List Byte) : MachineState where
  v     := Vector.replicate 16 0x00
  i     := 0x000
  pc    := 0x200
  stack := Vector.replicate 16 0x0000
  sp    := 0
  dt    := 0
  st    := 0
  mem   := Memory.image cfg rom
  disp  := Display.blank
  key   := Vector.replicate 16 false

/-- The block after `load(rom)`: snapshots discarded, the frame counter 0, the speed multiplier kept (R41). -/
def State.afterLoad (cfg : Config) (speedK draws : Nat) (rom : List Byte) : State where
  ms       := MachineState.afterLoad cfg rom
  snapbuf  := []
  frameCtr := 0
  speedK   := speedK
  cfg      := cfg
  draws    := draws

/-- The machine right after reset: a newly created block (speed_k = 1, R41) of the default configuration
after `load` of the empty ROM, the one reset with no program in it (R280, notes/assumptions/2.md). -/
def State.reset : State := State.afterLoad Config.default 1 0 []

end Sys2Proof.Machine
end

