-- ==== Sys2Proof/Machine/Ops.lean ====
section
/-! DEFINITION. The shared operations over the state: raising an error, the register accessors, the checked
program counter, the call stack and the checked memory accesses (00_scope.md R13). A meaning builds the
staged state of R14 with them and ends in a pc write, so a fault discards everything staged. -/

namespace Sys2Proof.Machine

/-- What a step or a host operation answers. -/
abbrev Answer := Host.Outcome State Fault Refusal

/-! ### Errors (60_exceptions.md R251, R260)

There are no traps, no handler and no return from one: raising saves nothing, changes no mode and goes
nowhere, and the staged state is discarded. -/

/-- `raise E(info)`: the step ends with the error and the live state stays as it was (R13, R14, R260). -/
def raise (e : Fault) : Answer := .fault e

/-- Go on with the result of an operation that may raise. -/
def attempt {α : Type} (r : Except Fault α) (k : α → Answer) : Answer :=
  match r with
  | .ok a => k a
  | .error e => raise e

/-! ### Registers (R13) -/

/-- `V[x]` (10_state.md R22). -/
def State.getV (s : State) (x : Reg) : Byte := s.ms.v[x.val]

/-- `V[x] <- b` (R22). -/
def State.setV (s : State) (x : Reg) (b : Byte) : State :=
  { s with ms := { s.ms with v := s.ms.v.set x.val b } }

/-- All sixteen registers at once, for FX65. -/
def State.setVs (s : State) (v : Vector Byte 16) : State := { s with ms := { s.ms with v := v } }

/-- `I <- w` (R25). -/
def State.setI (s : State) (w : Word) : State := { s with ms := { s.ms with i := w } }

/-- pc without the check of R84; only `setPc` calls it. -/
def State.withPc (s : State) (w : Word) : State := { s with ms := { s.ms with pc := w } }

/-- `DT <- b` (R33). -/
def State.setDt (s : State) (b : Byte) : State := { s with ms := { s.ms with dt := b } }

/-- `ST <- b` (R33). -/
def State.setSt (s : State) (b : Byte) : State := { s with ms := { s.ms with st := b } }

/-- Mem replaced (R34). -/
def State.setMem (s : State) (m : Memory) : State := { s with ms := { s.ms with mem := m } }

/-- Disp replaced (R35). -/
def State.setDisp (s : State) (d : Display) : State := { s with ms := { s.ms with disp := d } }

/-- The stack's slots and depth replaced (R28). -/
def State.setStack (s : State) (stack : Vector Word 16) (sp : Fin 17) : State :=
  { s with ms := { s.ms with stack := stack, sp := sp } }

/-- `Key[k] <- pressed` (R37). -/
def State.withKey (s : State) (k : KeyIndex) (pressed : Bool) : State :=
  { s with ms := { s.ms with key := s.ms.key.set k.val pressed } }

/-- `Key(k)`, the source's `is_key_pressed` (R13, 47_host_operations.md R226). -/
def State.isKeyPressed (s : State) (k : KeyIndex) : Bool := s.ms.key[k.val]

/-- One byte drawn from the oracle: the counter moves on, so the next draw is a fresh one (R141). -/
def State.withDraw (s : State) : State := { s with draws := s.draws + 1 }

/-! ### The program counter (30_encoding.md R84) -/

/-- The legal values of pc and of a pushed return address (R84). -/
abbrev PcLegal (t : Nat) : Prop := 0x200 ≤ t ∧ t ≤ 0xFFE

/-- The check of R84 on an unbounded natural, which is never reduced. -/
def checkPc (t : Nat) : Except Fault Word :=
  if PcLegal t then .ok (BitVec.ofNat 16 t) else .error (.invalidMemoryAccess t)

/-- `pc <- t`, the last write of an instruction (R83, R84). -/
def setPc (t : Nat) (s : State) : Answer :=
  attempt (checkPc t) fun w => .next (s.withPc w)

/-- `pc <- pc + 2`: every non-branching instruction's end (R83). -/
def advance (s : State) : Answer := setPc (s.ms.pc.toNat + 2) s

/-- A conditional skip: `pc + 4` if the condition holds, else `pc + 2` (R83). -/
def skipIf (c : Bool) (s : State) : Answer := setPc (s.ms.pc.toNat + if c then 4 else 2) s

/-! ### The call stack (10_state.md R30, R31) -/

/-- `Push(w)` (R30). -/
def State.push (w : Word) (s : State) : Except Fault State :=
  if h : s.ms.sp.val < 16 then
    .ok (s.setStack (s.ms.stack.set s.ms.sp.val w) ⟨s.ms.sp.val + 1, by omega⟩)
  else .error .stackOverflow

/-- `Pop()`: the value and the state; the slot keeps its value (R31). -/
def State.pop (s : State) : Except Fault (Word × State) :=
  if h : 0 < s.ms.sp.val then
    .ok (s.ms.stack[s.ms.sp.val - 1]'(by omega), s.setStack s.ms.stack ⟨s.ms.sp.val - 1, by omega⟩)
  else .error .stackUnderflow

/-! ### Checked memory accesses (20_memory.md R55 to R57) -/

/-- `MemRead(addr, 1)` (R55). -/
def memRead (m : Memory) (a : Nat) : Except Fault Byte :=
  if a > 0xFFF then .error (.invalidMemoryAccess a) else .ok (m.byteAt a)

/-- `MemWrite(addr, 1, b)` (R56). -/
def memWrite (m : Memory) (a : Nat) (b : Byte) : Except Fault Memory :=
  if a > 0xFFF then .error (.invalidMemoryAccess a) else .ok (m.put a b)

/-- `n` bytes from `a` up, in ascending order; the first address out of bounds is reported (R57). -/
def readBytes (m : Memory) (a : Nat) : Nat → Except Fault (List Byte)
  | 0 => .ok []
  | n + 1 =>
    match memRead m a with
    | .error e => .error e
    | .ok b =>
      match readBytes m (a + 1) n with
      | .error e => .error e
      | .ok bs => .ok (b :: bs)

/-- Bytes stored from `a` up, in ascending order; the first address out of bounds is reported and
nothing is written (R57). -/
def writeBytes (m : Memory) (a : Nat) : List Byte → Except Fault Memory
  | [] => .ok m
  | b :: bs =>
    match memWrite m a b with
    | .error e => .error e
    | .ok m' => writeBytes m' (a + 1) bs

/-! ### Fetch (30_encoding.md R80) -/

/-- `MemRead(pc, 1) ++ MemRead(pc + 1, 1)`, big-endian (R52, R80). -/
def fetchWord (s : State) : Except Fault Word :=
  match memRead s.ms.mem s.ms.pc.toNat with
  | .error e => .error e
  | .ok hi =>
    match memRead s.ms.mem (s.ms.pc.toNat + 1) with
    | .error e => .error e
    | .ok lo => .ok (wordOfBytes hi lo)

end Sys2Proof.Machine
end

