-- ==== Sys2Proof/Machine/Flags.lean ====
section
/-! DEFINITION. The 8-bit results and the flag computations of 10_state.md R39 and 42_alu.md R142, and the
order of the two writes (R15, R143): the result first, VF last. -/

namespace Sys2Proof.Machine

/-- A flag as a register value: 1 or 0 (R39). -/
def flagByte (c : Bool) : Byte := if c then 1#8 else 0#8

/-- `(a + b) mod 256` (R136). -/
def addByte (a b : Byte) : Byte := BitVec.ofNat 8 ((a.toNat + b.toNat) % 256)

/-- `(a - b) mod 256`, which is 256 + a - b when a < b (R137). -/
def subByte (a b : Byte) : Byte := BitVec.ofNat 8 ((256 + a.toNat - b.toNat) % 256)

/-- `a >> 1`, logical (R138). -/
def shrByte (a : Byte) : Byte := BitVec.ofNat 8 (a.toNat / 2)

/-- `(a << 1) mod 256` (R140). -/
def shlByte (a : Byte) : Byte := BitVec.ofNat 8 (a.toNat * 2 % 256)

/-- The carry of 8XY4, over the unbounded sum (R136, R142). -/
def carry (a b : Byte) : Bool := decide (a.toNat + b.toNat > 255)

/-- No borrow in `a - b` (R137, R142). -/
def noBorrow (a b : Byte) : Bool := decide (a.toNat ≥ b.toNat)

/-- The bit SHR shifts out (R138). -/
def shiftedOutRight (a : Byte) : Bool := a.getLsbD 0

/-- The bit SHL shifts out (R140). -/
def shiftedOutLeft (a : Byte) : Bool := a.getLsbD 7

/-- A result and then the flag: with x = 0xF the flag is what VF holds (R15, R143). -/
def State.setResultAndFlag (s : State) (x : Reg) (r : Byte) (flag : Bool) : State :=
  (s.setV x r).setV VF (flagByte flag)

/-- A logic result and then VF cleared under LOGIC_VF_RESET (R133). -/
def State.setLogicResult (s : State) (x : Reg) (r : Byte) : State :=
  if s.cfg.logicVfReset then (s.setV x r).setV VF 0#8 else s.setV x r

end Sys2Proof.Machine
end

