-- ==== Sys2Proof/Machine/Operands.lean ====
section
/-! DEFINITION. The operand forms of the instruction rules: the registers a configuration selects, the key and
glyph indices, the digits of FX33, the register blocks of FX55 and FX65, and the Rand8 draw. -/

namespace Sys2Proof.Machine

/-- The low nibble of a register value: the key of EX9E and EXA1 (44_timers_input.md R186). -/
def keyOperand (b : Byte) : KeyIndex := Fin.ofNat 16 (b &&& 0x0F#8).toNat

/-- The shift source: V[x] or V[y] by SHIFT_SRC (42_alu.md R138). -/
def shiftOperand (x y : Reg) (s : State) : Byte :=
  match s.cfg.shiftSrc with
  | .vx => s.getV x
  | .vy => s.getV y

/-- The offset register of BNNN: V0, or V[nnn[11:8]] by JUMP_OFFSET_REG (41_control_flow.md R104). -/
def jumpOffsetRegister (cfg : Config) (nnn : Addr) : Reg :=
  match cfg.jumpOffsetReg with
  | .v0 => 0
  | .vx => (nnn.extractLsb' 8 4).toFin

/-- The glyph address of FX29: FONT_BASE + 5 * (V[x] & 0x0F) (43_index_memory.md R162). -/
def fontAddress (cfg : Config) (b : Byte) : Nat := cfg.fontBase.toNat + 5 * (b &&& 0x0F#8).toNat

/-- The bytes FX33 stores: hundreds, tens, ones (R163). -/
def bcdDigits (b : Byte) : List Byte :=
  [BitVec.ofNat 8 (b.toNat / 100), BitVec.ofNat 8 (b.toNat / 10 % 10), BitVec.ofNat 8 (b.toNat % 10)]

/-- The bytes FX55 stores: V[0] to V[x] (R164). -/
def registerBlock (x : Reg) (v : Vector Byte 16) : List Byte := v.toList.take (x.val + 1)

/-- `V[k], V[k+1], ...` replaced by the bytes FX65 read (R165). -/
def loadBlock (k : Nat) : List Byte → Vector Byte 16 → Vector Byte 16
  | [], v => v
  | b :: bs, v => loadBlock (k + 1) bs (v.setIfInBounds k b)

/-- `IndexAfterBlock(x)` (R166). -/
def indexAfterBlock (x : Reg) (s : State) : Except Fault State :=
  match s.cfg.ldstIInc with
  | .none => .ok s
  | .xPlus1 =>
    if s.ms.i.toNat + x.val + 1 > 0xFFF then .error (.invalidMemoryAccess (s.ms.i.toNat + x.val + 1))
    else .ok (s.setI (BitVec.ofNat 16 (s.ms.i.toNat + x.val + 1)))

/-- The byte the next Rand8 draw gives (42_alu.md R141): a free value. -/
def nextDraw (s : State) : Byte := Config.rand8 s.draws

/-- The smallest pressed key, if any (R183). -/
def lowestKey (s : State) : Option KeyIndex := (List.finRange 16).find? fun k => s.isKeyPressed k

end Sys2Proof.Machine
end

