-- ==== Sys2Proof/Machine/Alu.lean ====
section
/-! DEFINITION. The meanings of 42_alu.md: register loads, logic, add and subtract, shifts, RND. Every operand
is read from the pre-step state (R143), and each instruction ends with `pc <- pc + 2`. -/

namespace Sys2Proof.Machine

/-- LD Vx, kk (R130). -/
def execLdImm (x : Reg) (kk : Byte) (s : State) : Answer := advance (s.setV x kk)

/-- ADD Vx, kk (R131): no flag. -/
def execAddImm (x : Reg) (kk : Byte) (s : State) : Answer := advance (s.setV x (addByte (s.getV x) kk))

/-- LD Vx, Vy (R132). -/
def execLdReg (x y : Reg) (s : State) : Answer := advance (s.setV x (s.getV y))

/-- OR Vx, Vy (R133). -/
def execOr (x y : Reg) (s : State) : Answer := advance (s.setLogicResult x (s.getV x ||| s.getV y))

/-- AND Vx, Vy (R134). -/
def execAnd (x y : Reg) (s : State) : Answer := advance (s.setLogicResult x (s.getV x &&& s.getV y))

/-- XOR Vx, Vy (R135). -/
def execXor (x y : Reg) (s : State) : Answer := advance (s.setLogicResult x (s.getV x ^^^ s.getV y))

/-- ADD Vx, Vy (R136). -/
def execAddReg (x y : Reg) (s : State) : Answer :=
  advance (s.setResultAndFlag x (addByte (s.getV x) (s.getV y)) (carry (s.getV x) (s.getV y)))

/-- SUB Vx, Vy (R137). -/
def execSub (x y : Reg) (s : State) : Answer :=
  advance (s.setResultAndFlag x (subByte (s.getV x) (s.getV y)) (noBorrow (s.getV x) (s.getV y)))

/-- SHR Vx, Vy (R138). -/
def execShr (x y : Reg) (s : State) : Answer :=
  advance (s.setResultAndFlag x (shrByte (shiftOperand x y s)) (shiftedOutRight (shiftOperand x y s)))

/-- SUBN Vx, Vy (R139). -/
def execSubn (x y : Reg) (s : State) : Answer :=
  advance (s.setResultAndFlag x (subByte (s.getV y) (s.getV x)) (noBorrow (s.getV y) (s.getV x)))

/-- SHL Vx, Vy (R140). -/
def execShl (x y : Reg) (s : State) : Answer :=
  advance (s.setResultAndFlag x (shlByte (shiftOperand x y s)) (shiftedOutLeft (shiftOperand x y s)))

/-- RND Vx, kk with a given draw (R141). -/
def rndWith (draw : Byte) (x : Reg) (kk : Byte) (s : State) : Answer :=
  advance ((s.setV x (draw &&& kk)).withDraw)

/-- RND Vx, kk: the draw is the oracle's next byte (R141). -/
def execRnd (x : Reg) (kk : Byte) (s : State) : Answer := rndWith (nextDraw s) x kk s

end Sys2Proof.Machine
end

