-- ==== Sys2Proof/Machine/Draw.lean ====
section
/-! DEFINITION. The meanings of 45_display.md: CLS and DRW. -/

namespace Sys2Proof.Machine

/-- The display and the collision flag `hit` while a sprite is drawn (R203). -/
abbrev Canvas := Display × Bool

/-- One sprite bit at one pixel (R203): a 1 toggles it, and records a set pixel becoming unset. -/
def plot (bit : Bool) (py : Fin 32) (px : Fin 64) (c : Canvas) : Canvas :=
  if bit then (c.1.toggle py px, c.2 || c.1.pixel py px) else c

/-- Columns `k` to 7 of a sprite row, bit 7 leftmost; columns wrap modulo 64 (R202, R203). -/
def drawColumns (x0 : Nat) (py : Fin 32) (row : Byte) (c : Canvas) : Canvas :=
  (List.range 8).foldl (fun c k => plot (row.getLsbD (7 - k)) py (Fin.ofNat 64 (x0 + k)) c) c

/-- The rows of a sprite from screen row `y` down, top row first; rows wrap modulo 32 (R202, R203). -/
def drawRows (x0 y : Nat) : List Byte → Canvas → Canvas
  | [], c => c
  | row :: rows, c => drawRows x0 (y + 1) rows (drawColumns x0 (Fin.ofNat 32 y) row c)

/-- The whole sprite from the start column and row, with `hit` starting at 0 (R203). -/
def drawSprite (x0 y0 : Nat) (rows : List Byte) (d : Display) : Canvas := drawRows x0 y0 rows (d, false)

/-- CLS (R201). -/
def execCls (s : State) : Answer := advance (s.setDisp Display.blank)

/-- DRW Vx, Vy, n (R203): the whole sprite is read before any pixel changes, and VF is written last. -/
def execDrw (x y : Reg) (n : Fin 16) (s : State) : Answer :=
  attempt (readBytes s.ms.mem s.ms.i.toNat n.val) fun rows =>
    advance (((s.setDisp (drawSprite ((s.getV x).toNat % 64) ((s.getV y).toNat % 32) rows s.ms.disp).1)).setV VF
      (flagByte (drawSprite ((s.getV x).toNat % 64) ((s.getV y).toNat % 32) rows s.ms.disp).2))

end Sys2Proof.Machine
end

