-- ==== Sys2Proof/Machine/Flow.lean ====
section
/-! DEFINITION. The meanings of 41_control_flow.md: SYS, RET, JP, CALL, JP V0 and the four register skips. -/

namespace Sys2Proof.Machine

/-- SYS nnn (R100). Under SYS_MODE = unknown the step never gets here, since the word decodes as Unknown;
the meaning then raises what that step raises (notes/assumptions/7.md). -/
def execSys (nnn : Addr) (s : State) : Answer :=
  match s.cfg.sysMode with
  | .nop => advance s
  | .unknown => raise (.unknownOpcode (encode (.sys nnn)))

/-- RET (R101). -/
def execRet (s : State) : Answer :=
  attempt s.pop fun r => setPc r.1.toNat r.2

/-- JP nnn (R102). -/
def execJp (nnn : Addr) (s : State) : Answer := setPc nnn.toNat s

/-- CALL nnn (R103): a full stack first, then the return address, then the target (60_exceptions.md R259). -/
def execCall (nnn : Addr) (s : State) : Answer :=
  attempt (s.push (s.ms.pc + 2#16)) fun pushed =>
    attempt (checkPc (s.ms.pc.toNat + 2)) fun _ => setPc nnn.toNat pushed

/-- JP V0, nnn (R104): the sum is unbounded. -/
def execJpV0 (nnn : Addr) (s : State) : Answer :=
  setPc (nnn.toNat + (s.getV (jumpOffsetRegister s.cfg nnn)).toNat) s

/-- SE Vx, kk (R105). -/
def execSeImm (x : Reg) (kk : Byte) (s : State) : Answer := skipIf (s.getV x == kk) s

/-- SNE Vx, kk (R106). -/
def execSneImm (x : Reg) (kk : Byte) (s : State) : Answer := skipIf (s.getV x != kk) s

/-- SE Vx, Vy (R107). -/
def execSeReg (x y : Reg) (s : State) : Answer := skipIf (s.getV x == s.getV y) s

/-- SNE Vx, Vy (R108). -/
def execSneReg (x y : Reg) (s : State) : Answer := skipIf (s.getV x != s.getV y) s

end Sys2Proof.Machine
end

