-- ==== Sys2Proof/Machine/Index.lean ====
section
/-! DEFINITION. The meanings of 43_index_memory.md: the index register, FX33, FX55 and FX65. -/

namespace Sys2Proof.Machine

/-- LD I, nnn (R160). -/
def execLdI (nnn : Addr) (s : State) : Answer := advance (s.setI (nnn.setWidth 16))

/-- ADD I, Vx (R161): a sum above 0xFFF raises; VF is not written. -/
def execAddI (x : Reg) (s : State) : Answer :=
  if s.ms.i.toNat + (s.getV x).toNat > 0xFFF then
    raise (.invalidMemoryAccess (s.ms.i.toNat + (s.getV x).toNat))
  else advance (s.setI (BitVec.ofNat 16 (s.ms.i.toNat + (s.getV x).toNat)))

/-- LD F, Vx (R162). -/
def execLdF (x : Reg) (s : State) : Answer :=
  advance (s.setI (BitVec.ofNat 16 (fontAddress s.cfg (s.getV x))))

/-- LD B, Vx (R163). -/
def execLdB (x : Reg) (s : State) : Answer :=
  attempt (writeBytes s.ms.mem s.ms.i.toNat (bcdDigits (s.getV x))) fun m => advance (s.setMem m)

/-- LD [I], Vx (R164). -/
def execLdMemVx (x : Reg) (s : State) : Answer :=
  attempt (writeBytes s.ms.mem s.ms.i.toNat (registerBlock x s.ms.v)) fun m =>
    attempt (indexAfterBlock x (s.setMem m)) advance

/-- LD Vx, [I] (R165). -/
def execLdVxMem (x : Reg) (s : State) : Answer :=
  attempt (readBytes s.ms.mem s.ms.i.toNat (x.val + 1)) fun bs =>
    attempt (indexAfterBlock x (s.setVs (loadBlock 0 bs s.ms.v))) advance

end Sys2Proof.Machine
end

