-- ==== Sys2Proof/Machine/TimersKeys.lean ====
section
/-! DEFINITION. The meanings of 44_timers_input.md: the key skips, the timer reads and writes, the wait for a
key. -/

namespace Sys2Proof.Machine

/-- SKP Vx (R180). -/
def execSkp (x : Reg) (s : State) : Answer := skipIf (s.isKeyPressed (keyOperand (s.getV x))) s

/-- SKNP Vx (R181). -/
def execSknp (x : Reg) (s : State) : Answer := skipIf (!s.isKeyPressed (keyOperand (s.getV x))) s

/-- LD Vx, DT (R182). -/
def execLdVxDt (x : Reg) (s : State) : Answer := advance (s.setV x s.ms.dt)

/-- LD Vx, K (R183): with no key pressed the step completes with no change at all. -/
def execLdVxK (x : Reg) (s : State) : Answer :=
  match lowestKey s with
  | none => .next s
  | some k => advance (s.setV x (BitVec.ofNat 8 k.val))

/-- LD DT, Vx (R184). -/
def execLdDtVx (x : Reg) (s : State) : Answer := advance (s.setDt (s.getV x))

/-- LD ST, Vx (R185). -/
def execLdStVx (x : Reg) (s : State) : Answer := advance (s.setSt (s.getV x))

end Sys2Proof.Machine
end

