-- ==== Sys2Proof/Machine/Step.lean ====
section
/-! DEFINITION. One `step()` (30_encoding.md R80 to R86): fetch, decode, execute. -/

namespace Sys2Proof.Machine

/-- `step()`: at most one instruction (R86). A fetch out of bounds, an Unknown word and a raised error end
the step with the error (R80, R81, R82). -/
def step (s : State) : Host.Outcome State Fault Refusal :=
  attempt (fetchWord s) fun w =>
    match decode s.cfg.sysMode w with
    | .ok i => exec i s
    | .error _ => raise (.unknownOpcode w)

/-- The state with a table row's word stored where the next step fetches: at pc and pc + 1, big-endian
(R52). It stands for the `load` of a program from outside (notes/assumptions/5.md). -/
def State.withFetchWord (s : State) (nbits w : Nat) : State :=
  if s.ms.pc.toNat + 1 ≤ 0xFFF then
    s.setMem (Memory.putBytes s.ms.pc.toNat [hiByte (tableWord nbits w), loByte (tableWord nbits w)] s.ms.mem)
  else s

end Sys2Proof.Machine
end

