-- ==== Sys2Proof/Machine/Operations.lean ====
section
/-! DEFINITION. The block's host operations (47_host_operations.md R220), each one atomic transaction between
steps (R221): load, tick_timers, set_key, display, sound_active, push_snapshot, rewind, set_speed; and the
block that exists before the first load (10_state.md R42). -/

namespace Sys2Proof.Machine

/-! ### The operations on the state of a loaded block -/

/-- One timer's decrement, floored at 0 (60_exceptions.md R262). -/
def tickByte (b : Byte) : Byte := if b.toNat > 0 then BitVec.ofNat 8 (b.toNat - 1) else b

/-- `tick_timers()` (R262). -/
def State.tickTimers (s : State) : State := (s.setDt (tickByte s.ms.dt)).setSt (tickByte s.ms.st)

/-- `set_key(index, pressed)` (R225). -/
def State.setKey (index : Nat) (pressed : Bool) (s : State) : Answer :=
  if h : index < 16 then .next (s.withKey ⟨index, h⟩ pressed) else .refused (.keyIndexOutOfRange index)

/-- `display()` (45_display.md R206). -/
def State.display (s : State) : Display := s.ms.disp

/-- `sound_active()` (R264). -/
def State.soundActive (s : State) : Bool := decide (s.ms.st.toNat > 0)

/-- The copy `push_snapshot` appends (R230, R231). -/
def State.capture (s : State) : Snapshot := { ms := s.ms, frame := s.frameCtr }

/-- The buffer with its oldest entry removed if it is full (R231). -/
def evictIfFull (cap : Nat) (buf : List Snapshot) : List Snapshot :=
  if buf.length = cap then buf.drop 1 else buf

/-- `push_snapshot()` (R231). -/
def State.pushSnapshot (s : State) : State :=
  { s with snapbuf := evictIfFull s.cfg.snapCap s.snapbuf ++ [s.capture], frameCtr := s.frameCtr + 1 }

/-- `rewind()` (R233): the newest entry is removed and its copy becomes the machine state. -/
def State.rewind (s : State) : Answer :=
  match s.snapbuf.getLast? with
  | none => .fault .bufferEmpty
  | some snap => .next { s with ms := snap.ms, snapbuf := s.snapbuf.dropLast }

/-- `set_speed(multiplier)` (R237). -/
def State.setSpeed (multiplier : Nat) (s : State) : Answer :=
  if multiplier ≥ 1 then .next { s with speedK := multiplier } else .refused .zeroMultiplier

/-! ### The block and its operations -/

/-- The block: newly created, with no machine state (R42), or loaded. -/
inductive Block where
  | created (cfg : Config)
  | loaded (s : State)
  deriving DecidableEq, Repr

/-- One call of the host (R220). -/
inductive Op where
  | load (bytes : List Byte)
  | step
  | tickTimers
  | setKey (index : Nat) (pressed : Bool)
  | display
  | soundActive
  | pushSnapshot
  | rewind
  | setSpeed (multiplier : Nat)
  deriving DecidableEq, Repr

/-- What an operation returns to the host (R220). -/
inductive Reply where
  /-- `Ok`, or nothing at all. -/
  | ok
  /-- The bits of `display()`. -/
  | bits (d : Display)
  /-- The boolean of `sound_active()`. -/
  | bool (b : Bool)
  /-- `Err(E)`. -/
  | err (e : Fault)
  /-- Refused at the interface. -/
  | refused (r : Refusal)
  deriving DecidableEq, Repr

/-- `load(bytes)` (70_reset_and_hazards.md R280 to R282). A first load finds speed_k = 1; a later one keeps
speed_k, the configuration and the count of draws (R41). -/
def Block.load (bytes : List Byte) : Block → Answer
  | .created cfg => if bytes.length ≤ 3584 then .next (State.afterLoad cfg 1 0 bytes) else .fault .romTooLarge
  | .loaded s =>
    if bytes.length ≤ 3584 then .next (State.afterLoad s.cfg s.speedK s.draws bytes) else .fault .romTooLarge

/-- An operation's end: a next state replaces the live one; an error or a refusal leaves it (R251). -/
def Block.settle (b : Block) : Answer → Block × Reply
  | .next s => (.loaded s, .ok)
  | .fault e => (b, .err e)
  | .refused r => (b, .refused r)

/-- One operation on a loaded block, all but `load` (R220). -/
def State.perform (s : State) : Op → Block × Reply
  | .load bytes => (Block.loaded s).settle (Block.load bytes (.loaded s))
  | .step => (Block.loaded s).settle (step s)
  | .tickTimers => (.loaded s.tickTimers, .ok)
  | .setKey index pressed => (Block.loaded s).settle (s.setKey index pressed)
  | .display => (.loaded s, .bits s.display)
  | .soundActive => (.loaded s, .bool s.soundActive)
  | .pushSnapshot => (.loaded s.pushSnapshot, .ok)
  | .rewind => (Block.loaded s).settle s.rewind
  | .setSpeed multiplier => (Block.loaded s).settle (s.setSpeed multiplier)

/-- One operation of the host: before the first successful `load` every other one is refused (R42, R223). -/
def Block.perform : Block → Op → Block × Reply
  | .loaded s, op => s.perform op
  | .created cfg, .load bytes => (Block.created cfg).settle (Block.load bytes (.created cfg))
  | .created cfg, .step => (.created cfg, .refused .noMachine)
  | .created cfg, .tickTimers => (.created cfg, .refused .noMachine)
  | .created cfg, .setKey _ _ => (.created cfg, .refused .noMachine)
  | .created cfg, .display => (.created cfg, .refused .noMachine)
  | .created cfg, .soundActive => (.created cfg, .refused .noMachine)
  | .created cfg, .pushSnapshot => (.created cfg, .refused .noMachine)
  | .created cfg, .rewind => (.created cfg, .refused .noMachine)
  | .created cfg, .setSpeed _ => (.created cfg, .refused .noMachine)

/-- A sequence of operations, in the order the host calls them: any sequence is accepted (R221, R222). -/
def Block.run : List Op → Block → Block
  | [], b => b
  | op :: ops, b => Block.run ops (b.perform op).1

/-! ### The end of a run (70_reset_and_hazards.md R291)

No operation of the hardware reads any of this: it is the spec's definition of where a run of the core ends. -/

/-- Why a run has ended (R291). -/
inductive RunEnd where
  /-- A step returned `Err(e)`; e is the observation. -/
  | error (e : Fault)
  /-- A step has executed a jump to its own address. -/
  | jumpToSelf
  deriving DecidableEq, Repr

/-- The word at pc is `1NNN` with nnn = pc (R291). -/
def atJumpToSelf (s : State) : Bool :=
  match fetchWord s with
  | .ok w => decide (opField w = 0x1#4 ∧ (nnnField w).toNat = s.ms.pc.toNat)
  | .error _ => false

/-- The end that one `step()` from `s` brings, if any: the step is executed first (R291). -/
def endOfStep (s : State) : Option RunEnd :=
  match step s with
  | .fault e => some (.error e)
  | .next _ => if atJumpToSelf s then some .jumpToSelf else none
  | .refused _ => none

/-- The end that one operation of the host brings: only a step of a machine that exists ends a run
(notes/assumptions/21.md). -/
def Block.endOf : Block → Op → Option RunEnd
  | .loaded s, op => if op = .step then endOfStep s else none
  | .created _, _ => none

/-- The host's operations up to and including the first that ends the run: the block it leaves, and the end if
there is one (R291). -/
def Block.runToEnd : List Op → Block → Block × Option RunEnd
  | [], b => (b, none)
  | op :: ops, b =>
    match b.endOf op with
    | some e => ((b.perform op).1, some e)
    | none => Block.runToEnd ops (b.perform op).1

/-! ### The host's frame contract (00_scope.md R8; R222, R238, R239)

BASELINE_IPF and TIMER_SCALING are parameters of the host: no rule of the core reads them. -/

/-- How many steps the host issues per frame: BASELINE_IPF * speed_k (R8, R238). -/
def stepsPerFrame (host : HostParams) (speedK : Nat) : Nat := host.baselineIpf.val * speedK

/-- How many ticks the host issues per frame, which is nominally 1/60 s (R239): speed_k of them under `scaled`,
one under `wall_clock` (notes/assumptions/14.md). -/
def ticksPerFrame (host : HostParams) (speedK : Nat) : Nat :=
  match host.timerScaling with
  | .scaled => speedK
  | .wallClock => 1

end Sys2Proof.Machine
end

