-- ==== Sys2Proof/Safety.lean ====
section
/-! DEFINITION. The terms claims use: the invariants of 10_state.md R21 on a machine state and on the whole
block, and the end of a run (70_reset_and_hazards.md R291). -/

namespace Sys2Proof.Machine

/-- The invariants of a machine state: pc (R21, R27), I (R25), canonical memory, and every occupied stack
slot a legal return address (R101). The ranges of sp and the timers are in their types. -/
structure MachineState.Inv (m : MachineState) : Prop where
  pcLegal    : PcLegal m.pc.toNat
  indexLegal : m.i.toNat ≤ 0xFFF
  memWf      : m.mem.wf = true
  stackLegal : ∀ k : Fin 16, k.val < m.sp.val → PcLegal m.stack[k.val].toNat

/-- The invariants of the whole block: a legal configuration, the live machine state and every snapshot's,
a buffer within its capacity whose frame indices strictly increase below the next one (R232, R236), and a
positive multiplier (R237). -/
structure State.Inv (s : State) : Prop where
  cfgLegal      : s.cfg.legal = true
  live          : s.ms.Inv
  snapshots     : ∀ snap ∈ s.snapbuf, snap.ms.Inv
  withinCap     : s.snapbuf.length ≤ s.cfg.snapCap
  framesRise    : (s.snapbuf.map Snapshot.frame).Pairwise (· < ·)
  framesBelow   : ∀ snap ∈ s.snapbuf, snap.frame < s.frameCtr
  speedPositive : 1 ≤ s.speedK

/-- The invariant of a block: a loaded one keeps `State.Inv`, a created one has a legal configuration. -/
def Block.Inv : Block → Prop
  | .created cfg => cfg.legal = true
  | .loaded s => s.Inv

/-- The run has ended within these operations (R291): one of its steps returned an error or executed a jump to
its own address. Before any step no run has ended, and a wait for a key is no end. -/
def runEnded (ops : List Op) (b : Block) : Prop := (Block.runToEnd ops b).2.isSome = true

/-- The state a completed non-branching instruction leaves (R83): machine state `m` with pc two further on, and
the rest of the block as it was. -/
def State.completedWith (s : State) (m : MachineState) : State :=
  { s with ms := { m with pc := s.ms.pc + 2#16 } }

/-- The word at pc as the fetch puts it together: the byte at pc is bits [15:8] (R52, R80). -/
def State.wordAtPc (s : State) : Word :=
  s.ms.mem.byteAt s.ms.pc.toNat ++ s.ms.mem.byteAt (s.ms.pc.toNat + 1)

/-- A set bit of the sprite of `DRW Vx, Vy, n` lands on pixel `(r, c)` (R202, R203): bit 7 - k of byte
Mem[I + j] falls on row (V[y] mod 32 + j) mod 32 and column (V[x] mod 64 + k) mod 64. -/
def spriteSets (s : State) (x y : Reg) (n : Fin 16) (r : Fin 32) (c : Fin 64) : Prop :=
  ∃ j k : Nat, j < n.val ∧ k < 8 ∧ (s.ms.mem.byteAt (s.ms.i.toNat + j)).getLsbD (7 - k) = true ∧
    r.val = (s.ms.v[y].toNat % 32 + j) % 32 ∧ c.val = (s.ms.v[x].toNat % 64 + k) % 64

/-- The configuration of a block. -/
def Block.config : Block → Config
  | .created cfg => cfg
  | .loaded s => s.cfg

/-- The speed multiplier a load leaves: 1 in a newly created block, else the one that stands (R41). -/
def Block.speed : Block → Nat
  | .created _ => 1
  | .loaded s => s.speedK

/-- The host operations that neither replace the machine from outside nor touch the snapshot buffer (R240). -/
def Op.keepsSnapshots : Op → Bool
  | .load _ | .pushSnapshot | .rewind => false
  | .step | .tickTimers | .setKey _ _ | .display | .soundActive | .setSpeed _ => true

/-- The host's calls when each group of operations is preceded by a push (R240). -/
def pushSchedule : List (List Op) → List Op
  | [] => []
  | ops :: rest => .pushSnapshot :: (ops ++ pushSchedule rest)

/-- The machine states that the pushes of a schedule copy, first push first (R240). -/
def pushedStates : List (List Op) → Block → List MachineState
  | [], _ => []
  | _ :: _, .created _ => []
  | ops :: rest, .loaded s => s.ms :: pushedStates rest (Block.run (.pushSnapshot :: ops) (.loaded s))

end Sys2Proof.Machine
end

