-- ==== Sys2Proof/Certificates/Slice0/Obligations.lean ====
section
/-! DEFINITION. The statements for the provers, from the numbered rules of spec/. Results are given as whole next
states, so each says what its instruction leaves unchanged as well: a record update changes the fields it
names and no others, and `State.completedWith` changes pc alone beside them. `PcLegal t` is the range check
of 30_encoding.md R84, 0x200 <= t <= 0xFFE. -/

open Sys2Proof Sys2Proof.Machine

/-! ### Encoding and decoding (30_encoding.md) -/

/-- R75, R76: words of the spec's own program listings (95_test_vectors.md P1 to P4) and of its decode
vectors decode as the listings say. -/
def Obligations.ListedWordsDecodeAsListed : Prop :=
  decode .nop 0x00E0 = .ok .cls ∧ decode .nop 0x00EE = .ok .ret ∧ decode .nop 0x0123 = .ok (.sys 0x123) ∧
  decode .nop 0x1206 = .ok (.jp 0x206) ∧ decode .nop 0x2210 = .ok (.call 0x210) ∧
  decode .nop 0x3342 = .ok (.seImm 3 0x42) ∧ decode .nop 0x7103 = .ok (.addImm 1 0x03) ∧
  decode .nop 0x8025 = .ok (.sub 0 2) ∧ decode .nop 0x83F4 = .ok (.addReg 3 15) ∧
  decode .nop 0xA300 = .ok (.ldI 0x300) ∧ decode .nop 0xC30F = .ok (.rnd 3 0x0F) ∧
  decode .nop 0xD125 = .ok (.drw 1 2 5) ∧ decode .nop 0xE19E = .ok (.skp 1) ∧
  decode .nop 0xF015 = .ok (.ldDtVx 0) ∧ decode .nop 0xF265 = .ok (.ldVxMem 2) ∧
  decode .nop 0x5121 = .error (.unknown 0x5121) ∧ decode .nop 0xF1FF = .error (.unknown 0xF1FF) ∧
  decode .unknown 0x0123 = .error (.unknown 0x0123) ∧ decode .unknown 0x00E0 = .ok .cls

/-- R75, R88: decoding the word of any well-formed instruction, every operand at every value, gives the
instruction back; SYS is the one instruction that needs SYS_MODE = nop. R88 is the spec's own inference,
"[derived: from rules R75 and R76]". -/
def Obligations.DecodeOfEncodeGivesTheInstructionBack : Prop :=
  ∀ (mode : SysMode) (i : Instr), i.wellFormed = true → (mode = .nop ∨ ∀ nnn, i ≠ .sys nnn) →
    decode mode (encode i) = .ok i

/-- R77, R88: a word that decodes is the word of the instruction it decodes to, and that instruction is
well-formed; so no two instructions share a word. R88 is the spec's own inference, "[derived: from rules R75
and R76]". -/
def Obligations.EncodeOfDecodeGivesTheWordBack : Prop :=
  ∀ (mode : SysMode) (w : Word) (i : Instr), decode mode w = .ok i → i.wellFormed = true ∧ encode i = w

/-- R78 without its counts: the words that decode as Unknown are exactly the listed classes, and each is
rejected as itself. R78 is the spec's own inference, "[derived: from rule R75]". -/
def Obligations.UnknownWordsAreTheListedClasses : Prop :=
  ∀ (mode : SysMode) (w : Word),
    decode mode w = .error (.unknown w) ↔
      (w.toNat / 0x1000 = 0x5 ∧ w.toNat % 0x10 ≠ 0) ∨
      (w.toNat / 0x1000 = 0x9 ∧ w.toNat % 0x10 ≠ 0) ∨
      (w.toNat / 0x1000 = 0x8 ∧ w.toNat % 0x10 ∈ [0x8, 0x9, 0xA, 0xB, 0xC, 0xD, 0xF]) ∨
      (w.toNat / 0x1000 = 0xE ∧ w.toNat % 0x100 ∉ [0x9E, 0xA1]) ∨
      (w.toNat / 0x1000 = 0xF ∧
        w.toNat % 0x100 ∉ [0x07, 0x0A, 0x15, 0x18, 0x1E, 0x29, 0x33, 0x55, 0x65]) ∨
      (w.toNat / 0x1000 = 0x0 ∧ mode = .unknown ∧ w ≠ 0x00E0#16 ∧ w ≠ 0x00EE#16)

/-! ### The step cycle (30_encoding.md) and errors (60_exceptions.md) -/

/-- R80, R82: with pc legal the fetch never raises, and when the word at pc decodes to an instruction, the
step is that instruction's execution. That the fetch never raises is the spec's own inference (R80). -/
def Obligations.StepExecutesTheWordAtPc : Prop :=
  ∀ (s : State) (i : Instr), PcLegal s.ms.pc.toNat →
    fetchWord s = .ok s.wordAtPc ∧
    (decode s.cfg.sysMode s.wordAtPc = .ok i → step s = exec i s)

/-- R81, R252: an Unknown word at pc ends the step with UnknownOpcode carrying the raw word, and the block,
pc included, is left as it was. -/
def Obligations.UnknownWordFailsTheStepUnchanged : Prop :=
  ∀ s : State, PcLegal s.ms.pc.toNat → decode s.cfg.sysMode s.wordAtPc = .error (.unknown s.wordAtPc) →
    step s = .fault (.unknownOpcode s.wordAtPc) ∧
    (Block.loaded s).perform .step = (.loaded s, .err (.unknownOpcode s.wordAtPc))

/-- R251, R85: an operation that returns an error or is refused changes no state, and a step that failed
fails again with the same error. The last clause, R85, is the spec's own inference. -/
def Obligations.FailedOperationsChangeNothing : Prop :=
  (∀ (b : Block) (op : Op) (e : Fault), (b.perform op).2 = .err e → (b.perform op).1 = b) ∧
  (∀ (b : Block) (op : Op) (r : Refusal), (b.perform op).2 = .refused r → (b.perform op).1 = b) ∧
  (∀ (b : Block) (e : Fault), (b.perform .step).2 = .err e →
    ((b.perform .step).1.perform .step) = (b, .err e))

/-- R250: on a loaded block, a step returns only the four execution errors and is never refused, load only
RomTooLarge, rewind only BufferEmpty, and every other operation returns no error at all. -/
def Obligations.EachOperationRaisesOnlyItsErrors : Prop :=
  (∀ (s : State) (r : Refusal), step s ≠ .refused r) ∧
  (∀ (s : State) (e : Fault), step s = .fault e → e ≠ .romTooLarge ∧ e ≠ .bufferEmpty) ∧
  (∀ (b : Block) (bytes : List Byte) (e : Fault), (b.perform (.load bytes)).2 = .err e → e = .romTooLarge) ∧
  (∀ (b : Block) (e : Fault), (b.perform .rewind).2 = .err e → e = .bufferEmpty) ∧
  (∀ (b : Block) (op : Op) (e : Fault), (b.perform op).2 = .err e →
    op = .step ∨ op = .rewind ∨ ∃ bytes, op = .load bytes)

/-- R253, R254: StackOverflow is raised by CALL with a full stack and nothing else, StackUnderflow by RET
with an empty one and nothing else. -/
def Obligations.StackErrorsComeFromCallAndRet : Prop :=
  ∀ (i : Instr) (s : State),
    (exec i s = .fault .stackOverflow ↔ (∃ nnn, i = .call nnn) ∧ s.ms.sp.val = 16) ∧
    (exec i s = .fault .stackUnderflow ↔ i = .ret ∧ s.ms.sp.val = 0)

/-! ### Memory (20_memory.md) -/

/-- R55, R56: a byte access above 0xFFF raises InvalidMemoryAccess with its address; below, a read returns
the byte and a write makes that byte read as written and every other byte as before. -/
def Obligations.ByteAccessesCheckTheirAddress : Prop :=
  ∀ (m : Memory) (a : Nat) (b : Byte), m.wf = true →
    (0xFFF < a → memRead m a = .error (.invalidMemoryAccess a) ∧
      memWrite m a b = .error (.invalidMemoryAccess a)) ∧
    (a ≤ 0xFFF → memRead m a = .ok (m.byteAt a) ∧
      ∃ m', memWrite m a b = .ok m' ∧ ∀ a', m'.byteAt a' = if a' = a then b else m.byteAt a')

/-- R57: an instruction whose bytes leave memory raises InvalidMemoryAccess with the first address out of
bounds, which is 0x1000 whenever I <= 0xFFF. `max I 0x1000` is that first address. That it is 0x1000 is the
spec's own inference (R57, "the reported address is always 0x1000 [derived: ...]"). -/
def Obligations.BlockAccessesReportTheFirstBadAddress : Prop :=
  ∀ (s : State) (x y : Reg) (n : Fin 16),
    (0xFFF < s.ms.i.toNat + 2 →
      exec (.ldB x) s = .fault (.invalidMemoryAccess (max s.ms.i.toNat 0x1000))) ∧
    (0xFFF < s.ms.i.toNat + x.val →
      exec (.ldMemVx x) s = .fault (.invalidMemoryAccess (max s.ms.i.toNat 0x1000)) ∧
      exec (.ldVxMem x) s = .fault (.invalidMemoryAccess (max s.ms.i.toNat 0x1000))) ∧
    (1 ≤ n.val → 0xFFF < s.ms.i.toNat + n.val - 1 →
      exec (.drw x y n) s = .fault (.invalidMemoryAccess (max s.ms.i.toNat 0x1000))) ∧
    (s.ms.i.toNat ≤ 0xFFF → max s.ms.i.toNat 0x1000 = 0x1000)

/-- R65, R287: bytes FX55 and FX33 store at the next instruction's address are what the next step fetches. It
is the spec's own inference (R287, "[derived: from 20_memory.md rule R65]"). -/
def Obligations.StoredBytesAreFetchedByTheNextStep : Prop :=
  ∀ (s t : State) (x : Reg), s.ms.mem.wf = true → s.ms.i.toNat = s.ms.pc.toNat + 2 →
    (1 ≤ x.val → exec (.ldMemVx x) s = .next t → fetchWord t = .ok (s.ms.v[0] ++ s.ms.v[1])) ∧
    (exec (.ldB x) s = .next t →
      fetchWord t = .ok (BitVec.ofNat 8 (s.ms.v[x].toNat / 100) ++ BitVec.ofNat 8 (s.ms.v[x].toNat / 10 % 10)))

/-! ### Control flow (41_control_flow.md) -/

/-- R100: under SYS_MODE = nop, SYS advances pc and changes nothing else, or raises when it cannot advance;
under SYS_MODE = unknown no word decodes to it. -/
def Obligations.SysOnlyAdvances : Prop :=
  ∀ (s : State) (nnn : Addr),
    (nnn ≠ 0x0E0#12 → nnn ≠ 0x0EE#12 → decode .nop (0x0#4 ++ nnn) = .ok (.sys nnn)) ∧
    (s.cfg.sysMode = .nop → PcLegal (s.ms.pc.toNat + 2) →
      exec (.sys nnn) s = .next (s.completedWith s.ms)) ∧
    (s.cfg.sysMode = .nop → ¬PcLegal (s.ms.pc.toNat + 2) →
      exec (.sys nnn) s = .fault (.invalidMemoryAccess (s.ms.pc.toNat + 2))) ∧
    (∀ w, decode .unknown w ≠ .ok (.sys nnn))

/-- R101, R31: RET jumps to the newest return address, which it never adjusts, and lowers the depth by 1,
leaving the slots as they are; an empty stack raises StackUnderflow, an illegal address
InvalidMemoryAccess. `k` is the depth after the pop. -/
def Obligations.RetPopsTheReturnAddress : Prop :=
  (∀ mode, decode mode 0b0000000011101110#16 = .ok .ret) ∧
  ∀ (s : State),
    (s.ms.sp.val = 0 → exec .ret s = .fault .stackUnderflow) ∧
    ∀ k : Fin 16, s.ms.sp.val = k.val + 1 →
      (PcLegal s.ms.stack[k].toNat →
        exec .ret s = .next { s with ms := { s.ms with pc := s.ms.stack[k], sp := k.castSucc } }) ∧
      (¬PcLegal s.ms.stack[k].toNat → exec .ret s = .fault (.invalidMemoryAccess s.ms.stack[k].toNat))

/-- R102: JP sets pc to its operand whatever pc was, and changes nothing else; a target outside
[0x200, 0xFFE] raises InvalidMemoryAccess. -/
def Obligations.JpSetsPcToItsOperand : Prop :=
  ∀ (s : State) (nnn : Addr),
    (∀ mode, decode mode (0x1#4 ++ nnn) = .ok (.jp nnn)) ∧
    (PcLegal nnn.toNat → exec (.jp nnn) s = .next { s with ms := { s.ms with pc := nnn.setWidth 16 } }) ∧
    (¬PcLegal nnn.toNat → exec (.jp nnn) s = .fault (.invalidMemoryAccess nnn.toNat))

/-- R103, R30, R259: CALL pushes pc + 2 and jumps; its errors come in the order full stack, return address,
target. `k` is the depth before the push. That a return address below 0x200 raises as well is the model's
reading (log entry 8, DEDUCED) of R84 and R255: R103's pseudocode writes only ret > 0xFFE. -/
def Obligations.CallPushesTheNextAddressAndJumps : Prop :=
  ∀ (s : State) (nnn : Addr),
    (∀ mode, decode mode (0x2#4 ++ nnn) = .ok (.call nnn)) ∧
    (s.ms.sp.val = 16 → exec (.call nnn) s = .fault .stackOverflow) ∧
    (s.ms.sp.val ≠ 16 → ¬PcLegal (s.ms.pc.toNat + 2) →
      exec (.call nnn) s = .fault (.invalidMemoryAccess (s.ms.pc.toNat + 2))) ∧
    (s.ms.sp.val ≠ 16 → PcLegal (s.ms.pc.toNat + 2) → ¬PcLegal nnn.toNat →
      exec (.call nnn) s = .fault (.invalidMemoryAccess nnn.toNat)) ∧
    (∀ k : Fin 16, s.ms.sp.val = k.val → PcLegal (s.ms.pc.toNat + 2) → PcLegal nnn.toNat →
      exec (.call nnn) s = .next { s with ms := { s.ms with
        stack := s.ms.stack.set k.val (s.ms.pc + 2#16), sp := k.succ, pc := nnn.setWidth 16 } })

/-- R101, R103: a CALL followed at once by the callee's RET comes back to the next instruction with the
depth, and everything but the slot it used and pc, as before. -/
def Obligations.RetAfterCallReturnsToTheNextInstruction : Prop :=
  ∀ (s t : State) (nnn : Addr), exec (.call nnn) s = .next t →
    exec .ret t = .next { s with ms := { s.ms with pc := s.ms.pc + 2#16, stack := t.ms.stack } } ∧
    ∀ k : Fin 16, k.val ≠ s.ms.sp.val → t.ms.stack[k] = s.ms.stack[k]

/-- R104: JP V0 jumps to nnn plus the offset register, V0 or V[nnn[11:8]] by JUMP_OFFSET_REG, the sum never
wrapped; a sum outside [0x200, 0xFFE] raises InvalidMemoryAccess. -/
def Obligations.JpV0JumpsToTheUnboundedSum : Prop :=
  ∀ (s : State) (nnn : Addr) (r : Reg),
    r.val = (if s.cfg.jumpOffsetReg = .v0 then 0 else nnn.toNat / 0x100) →
    (∀ mode, decode mode (0xB#4 ++ nnn) = .ok (.jpV0 nnn)) ∧
    (PcLegal (nnn.toNat + s.ms.v[r].toNat) →
      exec (.jpV0 nnn) s =
        .next { s with ms := { s.ms with pc := BitVec.ofNat 16 (nnn.toNat + s.ms.v[r].toNat) } }) ∧
    (¬PcLegal (nnn.toNat + s.ms.v[r].toNat) →
      exec (.jpV0 nnn) s = .fault (.invalidMemoryAccess (nnn.toNat + s.ms.v[r].toNat)))

/-- R105 to R108: the four register skips go to pc + 4 when their condition holds and to pc + 2 when it does
not, change nothing else, and raise InvalidMemoryAccess when that address is out of range. -/
def Obligations.RegisterSkipsMoveByFourOrTwo : Prop :=
  ∀ (s : State) (x y : Reg) (kk : Byte),
    (∀ mode, decode mode (0x3#4 ++ nibble x ++ kk) = .ok (.seImm x kk) ∧
      decode mode (0x4#4 ++ nibble x ++ kk) = .ok (.sneImm x kk) ∧
      decode mode (0x5#4 ++ nibble x ++ nibble y ++ 0x0#4) = .ok (.seReg x y) ∧
      decode mode (0x9#4 ++ nibble x ++ nibble y ++ 0x0#4) = .ok (.sneReg x y)) ∧
    ∀ (i : Instr) (d : Nat),
      (i = .seImm x kk ∧ d = if s.ms.v[x] = kk then 4 else 2) ∨
      (i = .sneImm x kk ∧ d = if s.ms.v[x] ≠ kk then 4 else 2) ∨
      (i = .seReg x y ∧ d = if s.ms.v[x] = s.ms.v[y] then 4 else 2) ∨
      (i = .sneReg x y ∧ d = if s.ms.v[x] ≠ s.ms.v[y] then 4 else 2) →
      (PcLegal (s.ms.pc.toNat + d) →
        exec i s = .next { s with ms := { s.ms with pc := s.ms.pc + BitVec.ofNat 16 d } }) ∧
      (¬PcLegal (s.ms.pc.toNat + d) → exec i s = .fault (.invalidMemoryAccess (s.ms.pc.toNat + d)))

/-- R180, R181, R186: the key skips test the key that the low nibble of V[x] names, and go to pc + 4 or
pc + 2 as the other skips do. `k` is that key. -/
def Obligations.KeySkipsTestTheKeyOfTheLowNibble : Prop :=
  ∀ (s : State) (x : Reg) (k : KeyIndex), k.val = s.ms.v[x].toNat % 16 →
    (∀ mode, decode mode (0xE#4 ++ nibble x ++ 0x9E#8) = .ok (.skp x) ∧
      decode mode (0xE#4 ++ nibble x ++ 0xA1#8) = .ok (.sknp x)) ∧
    ∀ (i : Instr) (d : Nat),
      (i = .skp x ∧ d = if s.ms.key[k] = true then 4 else 2) ∨
      (i = .sknp x ∧ d = if s.ms.key[k] = false then 4 else 2) →
      (PcLegal (s.ms.pc.toNat + d) →
        exec i s = .next { s with ms := { s.ms with pc := s.ms.pc + BitVec.ofNat 16 d } }) ∧
      (¬PcLegal (s.ms.pc.toNat + d) → exec i s = .fault (.invalidMemoryAccess (s.ms.pc.toNat + d)))

/-- R109: a skip never fetches the word it may skip: with any other bytes at pc + 2 and pc + 3, a step that
runs a skip ends as before, those bytes apart. `m` is memory with other bytes there. R109 is the spec's own
inference, "[derived: from rule R105 and 30_encoding.md rule R70]". -/
def Obligations.SkippedWordIsNeverRead : Prop :=
  ∀ (s : State) (m : Memory) (i : Instr), PcLegal s.ms.pc.toNat →
    (∀ a, a ≠ s.ms.pc.toNat + 2 → a ≠ s.ms.pc.toNat + 3 → m.byteAt a = s.ms.mem.byteAt a) →
    decode s.cfg.sysMode s.wordAtPc = .ok i →
    (∃ x y kk, i ∈ [.seImm x kk, .sneImm x kk, .seReg x y, .sneReg x y, .skp x, .sknp x]) →
    (∀ t, step s = .next t → step (s.setMem m) = .next (t.setMem m)) ∧
    (∀ e, step s = .fault e → step (s.setMem m) = .fault e)

/-! ### Loads and the ALU (42_alu.md) -/

/-- R130 to R132: LD Vx, kk loads kk, ADD Vx, kk adds kk modulo 256 and writes no flag, LD Vx, Vy copies
V[y]; each advances pc or raises when it cannot. -/
def Obligations.LoadsAndAddImmediateWriteOnlyVx : Prop :=
  ∀ (s : State) (x y : Reg) (kk : Byte),
    (∀ mode, decode mode (0x6#4 ++ nibble x ++ kk) = .ok (.ldImm x kk) ∧
      decode mode (0x7#4 ++ nibble x ++ kk) = .ok (.addImm x kk) ∧
      decode mode (0x8#4 ++ nibble x ++ nibble y ++ 0x0#4) = .ok (.ldReg x y)) ∧
    (PcLegal (s.ms.pc.toNat + 2) →
      exec (.ldImm x kk) s = .next (s.completedWith { s.ms with v := s.ms.v.set x kk }) ∧
      exec (.addImm x kk) s = .next (s.completedWith { s.ms with
        v := s.ms.v.set x (BitVec.ofNat 8 ((s.ms.v[x].toNat + kk.toNat) % 256)) }) ∧
      exec (.ldReg x y) s = .next (s.completedWith { s.ms with v := s.ms.v.set x s.ms.v[y] })) ∧
    (¬PcLegal (s.ms.pc.toNat + 2) →
      ∀ i ∈ [Instr.ldImm x kk, .addImm x kk, .ldReg x y],
        exec i s = .fault (.invalidMemoryAccess (s.ms.pc.toNat + 2)))

/-- R133 to R135: OR, AND and XOR write their result to V[x], then VF <- 0 under LOGIC_VF_RESET and
nothing more otherwise; each advances pc or raises when it cannot. -/
def Obligations.LogicWritesVxAndMayResetVF : Prop :=
  ∀ (s : State) (x y : Reg),
    (∀ mode, decode mode (0x8#4 ++ nibble x ++ nibble y ++ 0x1#4) = .ok (.orReg x y) ∧
      decode mode (0x8#4 ++ nibble x ++ nibble y ++ 0x2#4) = .ok (.andReg x y) ∧
      decode mode (0x8#4 ++ nibble x ++ nibble y ++ 0x3#4) = .ok (.xorReg x y)) ∧
    ∀ (i : Instr) (r : Byte),
      (i = .orReg x y ∧ r = s.ms.v[x] ||| s.ms.v[y]) ∨
      (i = .andReg x y ∧ r = s.ms.v[x] &&& s.ms.v[y]) ∨
      (i = .xorReg x y ∧ r = s.ms.v[x] ^^^ s.ms.v[y]) →
      (PcLegal (s.ms.pc.toNat + 2) → s.cfg.logicVfReset = false →
        exec i s = .next (s.completedWith { s.ms with v := s.ms.v.set x r })) ∧
      (PcLegal (s.ms.pc.toNat + 2) → s.cfg.logicVfReset = true →
        exec i s = .next (s.completedWith { s.ms with v := (s.ms.v.set x r).set 15 0#8 })) ∧
      (¬PcLegal (s.ms.pc.toNat + 2) → exec i s = .fault (.invalidMemoryAccess (s.ms.pc.toNat + 2)))

/-- R136: ADD Vx, Vy writes the sum modulo 256 and then VF = the carry over the unbounded sum. -/
def Obligations.AddWritesTheSumThenTheCarry : Prop :=
  ∀ (s : State) (x y : Reg),
    (∀ mode, decode mode (0x8#4 ++ nibble x ++ nibble y ++ 0x4#4) = .ok (.addReg x y)) ∧
    (PcLegal (s.ms.pc.toNat + 2) →
      exec (.addReg x y) s = .next (s.completedWith { s.ms with
        v := (s.ms.v.set x (s.ms.v[x] + s.ms.v[y])).set 15
          (if s.ms.v[x].toNat + s.ms.v[y].toNat > 255 then 1#8 else 0#8) })) ∧
    (¬PcLegal (s.ms.pc.toNat + 2) →
      exec (.addReg x y) s = .fault (.invalidMemoryAccess (s.ms.pc.toNat + 2)))

/-- R137, R139: SUB writes V[x] - V[y] and SUBN V[y] - V[x], modulo 256, and then VF = no borrow, which
equal operands give too. -/
def Obligations.SubtractionsWriteTheDifferenceThenNoBorrow : Prop :=
  ∀ (s : State) (x y : Reg),
    (∀ mode, decode mode (0x8#4 ++ nibble x ++ nibble y ++ 0x5#4) = .ok (.sub x y) ∧
      decode mode (0x8#4 ++ nibble x ++ nibble y ++ 0x7#4) = .ok (.subn x y)) ∧
    (PcLegal (s.ms.pc.toNat + 2) →
      exec (.sub x y) s = .next (s.completedWith { s.ms with
        v := (s.ms.v.set x (s.ms.v[x] - s.ms.v[y])).set 15
          (if s.ms.v[x].toNat ≥ s.ms.v[y].toNat then 1#8 else 0#8) }) ∧
      exec (.subn x y) s = .next (s.completedWith { s.ms with
        v := (s.ms.v.set x (s.ms.v[y] - s.ms.v[x])).set 15
          (if s.ms.v[y].toNat ≥ s.ms.v[x].toNat then 1#8 else 0#8) })) ∧
    (¬PcLegal (s.ms.pc.toNat + 2) →
      exec (.sub x y) s = .fault (.invalidMemoryAccess (s.ms.pc.toNat + 2)) ∧
      exec (.subn x y) s = .fault (.invalidMemoryAccess (s.ms.pc.toNat + 2)))

/-- R138, R140: the shifts move the shift source, V[x] or V[y] by SHIFT_SRC, by exactly one bit into V[x],
and then VF = the bit shifted out. `src` is the shift source. -/
def Obligations.ShiftsWriteTheResultThenTheBitShiftedOut : Prop :=
  ∀ (s : State) (x y : Reg) (src : Byte), src = (if s.cfg.shiftSrc = .vx then s.ms.v[x] else s.ms.v[y]) →
    (∀ mode, decode mode (0x8#4 ++ nibble x ++ nibble y ++ 0x6#4) = .ok (.shr x y) ∧
      decode mode (0x8#4 ++ nibble x ++ nibble y ++ 0xE#4) = .ok (.shl x y)) ∧
    (PcLegal (s.ms.pc.toNat + 2) →
      exec (.shr x y) s = .next (s.completedWith { s.ms with
        v := (s.ms.v.set x (src >>> 1)).set 15 (if src.toNat % 2 = 1 then 1#8 else 0#8) }) ∧
      exec (.shl x y) s = .next (s.completedWith { s.ms with
        v := (s.ms.v.set x (src <<< 1)).set 15 (if 128 ≤ src.toNat then 1#8 else 0#8) })) ∧
    (¬PcLegal (s.ms.pc.toNat + 2) →
      exec (.shr x y) s = .fault (.invalidMemoryAccess (s.ms.pc.toNat + 2)) ∧
      exec (.shl x y) s = .fault (.invalidMemoryAccess (s.ms.pc.toNat + 2)))

/-- R141: RND writes a draw ANDed with kk to V[x], whatever byte the oracle draws (`draw` is free), and the
count of draws moves on, so that each execution takes a fresh draw; kk = 0 gives 0 and kk = 0xFF the draw.
The count is the model's own (log entry 4). -/
def Obligations.RndMasksAFreshDraw : Prop :=
  ∀ (s : State) (x : Reg) (kk draw : Byte), draw = Config.rand8 s.draws →
    (∀ mode, decode mode (0xC#4 ++ nibble x ++ kk) = .ok (.rnd x kk)) ∧
    (PcLegal (s.ms.pc.toNat + 2) →
      exec (.rnd x kk) s =
        .next { s.completedWith { s.ms with v := s.ms.v.set x (draw &&& kk) } with draws := s.draws + 1 }) ∧
    (PcLegal (s.ms.pc.toNat + 2) →
      exec (.rnd x 0x00#8) s =
        .next { s.completedWith { s.ms with v := s.ms.v.set x 0x00#8 } with draws := s.draws + 1 }) ∧
    (PcLegal (s.ms.pc.toNat + 2) →
      exec (.rnd x 0xFF#8) s =
        .next { s.completedWith { s.ms with v := s.ms.v.set x draw } with draws := s.draws + 1 }) ∧
    (¬PcLegal (s.ms.pc.toNat + 2) → exec (.rnd x kk) s = .fault (.invalidMemoryAccess (s.ms.pc.toNat + 2)))

/-- R15, R143: where VF is the destination of an arithmetic instruction, the flag is what it holds
afterwards, and the result is lost. -/
def Obligations.FlagWinsWhenVFIsTheDestination : Prop :=
  ∀ (s t : State) (y : Reg),
    (exec (.addReg 15 y) s = .next t →
      t.ms.v[15] = if s.ms.v[15].toNat + s.ms.v[y].toNat > 255 then 1#8 else 0#8) ∧
    (exec (.sub 15 y) s = .next t → t.ms.v[15] = if s.ms.v[15].toNat ≥ s.ms.v[y].toNat then 1#8 else 0#8) ∧
    (exec (.subn 15 y) s = .next t → t.ms.v[15] = if s.ms.v[y].toNat ≥ s.ms.v[15].toNat then 1#8 else 0#8) ∧
    (s.cfg.shiftSrc = .vx → exec (.shr 15 y) s = .next t →
      t.ms.v[15] = if s.ms.v[15].toNat % 2 = 1 then 1#8 else 0#8) ∧
    (s.cfg.shiftSrc = .vx → exec (.shl 15 y) s = .next t →
      t.ms.v[15] = if 128 ≤ s.ms.v[15].toNat then 1#8 else 0#8)

/-! ### The index register and memory (43_index_memory.md) -/

/-- R160: LD I, nnn writes any 12-bit address to I. -/
def Obligations.LdIWritesTheAddress : Prop :=
  ∀ (s : State) (nnn : Addr),
    (∀ mode, decode mode (0xA#4 ++ nnn) = .ok (.ldI nnn)) ∧
    (PcLegal (s.ms.pc.toNat + 2) →
      exec (.ldI nnn) s = .next (s.completedWith { s.ms with i := nnn.setWidth 16 })) ∧
    (¬PcLegal (s.ms.pc.toNat + 2) → exec (.ldI nnn) s = .fault (.invalidMemoryAccess (s.ms.pc.toNat + 2)))

/-- R161: ADD I, Vx adds V[x] to I; a sum above 0xFFF raises InvalidMemoryAccess with the sum, and VF is
never written. -/
def Obligations.AddIRaisesAboveTheAddressSpace : Prop :=
  ∀ (s : State) (x : Reg),
    (∀ mode, decode mode (0xF#4 ++ nibble x ++ 0x1E#8) = .ok (.addI x)) ∧
    (s.ms.i.toNat + s.ms.v[x].toNat > 0xFFF →
      exec (.addI x) s = .fault (.invalidMemoryAccess (s.ms.i.toNat + s.ms.v[x].toNat))) ∧
    (s.ms.i.toNat + s.ms.v[x].toNat ≤ 0xFFF → PcLegal (s.ms.pc.toNat + 2) →
      exec (.addI x) s = .next (s.completedWith { s.ms with i := s.ms.i + s.ms.v[x].setWidth 16 })) ∧
    (s.ms.i.toNat + s.ms.v[x].toNat ≤ 0xFFF → ¬PcLegal (s.ms.pc.toNat + 2) →
      exec (.addI x) s = .fault (.invalidMemoryAccess (s.ms.pc.toNat + 2)))

/-- R162: LD F, Vx points I at the glyph of V[x]'s low nibble, which under a legal configuration lies below
0x200. -/
def Obligations.LdFPointsAtTheGlyph : Prop :=
  ∀ (s : State) (x : Reg),
    (∀ mode, decode mode (0xF#4 ++ nibble x ++ 0x29#8) = .ok (.ldF x)) ∧
    (PcLegal (s.ms.pc.toNat + 2) →
      exec (.ldF x) s = .next (s.completedWith { s.ms with
        i := BitVec.ofNat 16 (s.cfg.fontBase.toNat + 5 * (s.ms.v[x].toNat % 16)) })) ∧
    (¬PcLegal (s.ms.pc.toNat + 2) → exec (.ldF x) s = .fault (.invalidMemoryAccess (s.ms.pc.toNat + 2))) ∧
    (s.cfg.legal = true → s.cfg.fontBase.toNat + 5 * (s.ms.v[x].toNat % 16) < 0x200)

/-- R163: LD B, Vx stores the hundreds, tens and ones of V[x] at I, I + 1 and I + 2, and no other byte
changes; if I + 2 > 0xFFF it raises InvalidMemoryAccess(0x1000). -/
def Obligations.LdBStoresThreeDigits : Prop :=
  ∀ (s : State) (x : Reg), s.ms.mem.wf = true → s.ms.i.toNat ≤ 0xFFF →
    (∀ mode, decode mode (0xF#4 ++ nibble x ++ 0x33#8) = .ok (.ldB x)) ∧
    (0xFFF < s.ms.i.toNat + 2 → exec (.ldB x) s = .fault (.invalidMemoryAccess 0x1000)) ∧
    (s.ms.i.toNat + 2 ≤ 0xFFF → ¬PcLegal (s.ms.pc.toNat + 2) →
      exec (.ldB x) s = .fault (.invalidMemoryAccess (s.ms.pc.toNat + 2))) ∧
    (s.ms.i.toNat + 2 ≤ 0xFFF → PcLegal (s.ms.pc.toNat + 2) →
      ∃ m : Memory, exec (.ldB x) s = .next (s.completedWith { s.ms with mem := m }) ∧
        m.byteAt s.ms.i.toNat = BitVec.ofNat 8 (s.ms.v[x].toNat / 100) ∧
        m.byteAt (s.ms.i.toNat + 1) = BitVec.ofNat 8 (s.ms.v[x].toNat / 10 % 10) ∧
        m.byteAt (s.ms.i.toNat + 2) = BitVec.ofNat 8 (s.ms.v[x].toNat % 10) ∧
        ∀ a, (a < s.ms.i.toNat ∨ s.ms.i.toNat + 2 < a) → m.byteAt a = s.ms.mem.byteAt a)

/-- R164, R166: LD [I], Vx stores V[0] to V[x] at I to I + x, and no other byte changes; I stays or becomes
I + x + 1 by LDST_I_INC. A block past 0xFFF, or then an I past 0xFFF, raises InvalidMemoryAccess. -/
def Obligations.LdMemVxStoresTheRegisterBlock : Prop :=
  ∀ (s : State) (x : Reg), s.ms.mem.wf = true → s.ms.i.toNat ≤ 0xFFF →
    (∀ mode, decode mode (0xF#4 ++ nibble x ++ 0x55#8) = .ok (.ldMemVx x)) ∧
    (0xFFF < s.ms.i.toNat + x.val → exec (.ldMemVx x) s = .fault (.invalidMemoryAccess 0x1000)) ∧
    (s.ms.i.toNat + x.val ≤ 0xFFF → s.cfg.ldstIInc = .xPlus1 → 0xFFF < s.ms.i.toNat + x.val + 1 →
      exec (.ldMemVx x) s = .fault (.invalidMemoryAccess (s.ms.i.toNat + x.val + 1))) ∧
    ∀ after : Word,
      (s.cfg.ldstIInc = .none ∧ s.ms.i.toNat + x.val ≤ 0xFFF ∧ after = s.ms.i) ∨
      (s.cfg.ldstIInc = .xPlus1 ∧ s.ms.i.toNat + x.val + 1 ≤ 0xFFF ∧
        after = BitVec.ofNat 16 (s.ms.i.toNat + x.val + 1)) →
      (¬PcLegal (s.ms.pc.toNat + 2) →
        exec (.ldMemVx x) s = .fault (.invalidMemoryAccess (s.ms.pc.toNat + 2))) ∧
      (PcLegal (s.ms.pc.toNat + 2) →
        ∃ m : Memory, exec (.ldMemVx x) s = .next (s.completedWith { s.ms with mem := m, i := after }) ∧
          (∀ k : Reg, k.val ≤ x.val → m.byteAt (s.ms.i.toNat + k.val) = s.ms.v[k]) ∧
          ∀ a, (a < s.ms.i.toNat ∨ s.ms.i.toNat + x.val < a) → m.byteAt a = s.ms.mem.byteAt a)

/-- R165, R166: LD Vx, [I] loads V[0] to V[x] from I to I + x and leaves the registers above x and all of
memory alone; I stays or becomes I + x + 1 by LDST_I_INC. A block past 0xFFF, or then an I past 0xFFF, raises
InvalidMemoryAccess. -/
def Obligations.LdVxMemLoadsTheRegisterBlock : Prop :=
  ∀ (s : State) (x : Reg), s.ms.i.toNat ≤ 0xFFF →
    (∀ mode, decode mode (0xF#4 ++ nibble x ++ 0x65#8) = .ok (.ldVxMem x)) ∧
    (0xFFF < s.ms.i.toNat + x.val → exec (.ldVxMem x) s = .fault (.invalidMemoryAccess 0x1000)) ∧
    (s.ms.i.toNat + x.val ≤ 0xFFF → s.cfg.ldstIInc = .xPlus1 → 0xFFF < s.ms.i.toNat + x.val + 1 →
      exec (.ldVxMem x) s = .fault (.invalidMemoryAccess (s.ms.i.toNat + x.val + 1))) ∧
    ∀ after : Word,
      (s.cfg.ldstIInc = .none ∧ s.ms.i.toNat + x.val ≤ 0xFFF ∧ after = s.ms.i) ∨
      (s.cfg.ldstIInc = .xPlus1 ∧ s.ms.i.toNat + x.val + 1 ≤ 0xFFF ∧
        after = BitVec.ofNat 16 (s.ms.i.toNat + x.val + 1)) →
      (¬PcLegal (s.ms.pc.toNat + 2) →
        exec (.ldVxMem x) s = .fault (.invalidMemoryAccess (s.ms.pc.toNat + 2))) ∧
      (PcLegal (s.ms.pc.toNat + 2) →
        ∃ v : Vector Byte 16, exec (.ldVxMem x) s = .next (s.completedWith { s.ms with v := v, i := after }) ∧
          ∀ k : Reg, v[k] = if k.val ≤ x.val then s.ms.mem.byteAt (s.ms.i.toNat + k.val) else s.ms.v[k])

/-! ### Timers and keys (44_timers_input.md) -/

/-- R182, R184, R185: LD Vx, DT reads the delay timer, LD DT, Vx and LD ST, Vx write the timers; each
advances pc or raises when it cannot. -/
def Obligations.TimerInstructionsMoveTheTimers : Prop :=
  ∀ (s : State) (x : Reg),
    (∀ mode, decode mode (0xF#4 ++ nibble x ++ 0x07#8) = .ok (.ldVxDt x) ∧
      decode mode (0xF#4 ++ nibble x ++ 0x15#8) = .ok (.ldDtVx x) ∧
      decode mode (0xF#4 ++ nibble x ++ 0x18#8) = .ok (.ldStVx x)) ∧
    (PcLegal (s.ms.pc.toNat + 2) →
      exec (.ldVxDt x) s = .next (s.completedWith { s.ms with v := s.ms.v.set x s.ms.dt }) ∧
      exec (.ldDtVx x) s = .next (s.completedWith { s.ms with dt := s.ms.v[x] }) ∧
      exec (.ldStVx x) s = .next (s.completedWith { s.ms with st := s.ms.v[x] })) ∧
    (¬PcLegal (s.ms.pc.toNat + 2) →
      ∀ i ∈ [Instr.ldVxDt x, .ldDtVx x, .ldStVx x],
        exec i s = .fault (.invalidMemoryAccess (s.ms.pc.toNat + 2)))

/-- R183: with no key pressed LD Vx, K completes and changes nothing at all, at any pc; with a key pressed it
writes the smallest pressed key's index to V[x] and advances, or raises when it cannot. -/
def Obligations.LdVxKWaitsForTheLowestKey : Prop :=
  ∀ (s : State) (x : Reg),
    (∀ mode, decode mode (0xF#4 ++ nibble x ++ 0x0A#8) = .ok (.ldVxK x)) ∧
    ((∀ k : KeyIndex, s.ms.key[k] = false) → exec (.ldVxK x) s = .next s) ∧
    ∀ k : KeyIndex, s.ms.key[k] = true → (∀ j : KeyIndex, j < k → s.ms.key[j] = false) →
      (PcLegal (s.ms.pc.toNat + 2) →
        exec (.ldVxK x) s = .next (s.completedWith { s.ms with v := s.ms.v.set x (BitVec.ofNat 8 k.val) })) ∧
      (¬PcLegal (s.ms.pc.toNat + 2) →
        exec (.ldVxK x) s = .fault (.invalidMemoryAccess (s.ms.pc.toNat + 2)))

/-! ### The display (45_display.md) -/

/-- R201: CLS unsets all 2048 pixels and leaves VF and everything else alone. -/
def Obligations.ClsUnsetsEveryPixel : Prop :=
  ∀ s : State,
    (∀ mode, decode mode 0b0000000011100000#16 = .ok .cls) ∧
    (PcLegal (s.ms.pc.toNat + 2) →
      ∃ d : Display, exec .cls s = .next (s.completedWith { s.ms with disp := d }) ∧
        ∀ r c, d.pixel r c = false) ∧
    (¬PcLegal (s.ms.pc.toNat + 2) → exec .cls s = .fault (.invalidMemoryAccess (s.ms.pc.toNat + 2)))

/-- R203, R205: DRW toggles exactly the pixels that a set bit of the sprite lands on, both axes wrapping,
and then writes VF = 1 if any of them was set before the step, else 0; a sprite that leaves memory raises
InvalidMemoryAccess(0x1000) and n = 0 draws nothing. -/
def Obligations.DrwXorsTheSpriteAndReportsCollision : Prop :=
  ∀ (s : State) (x y : Reg) (n : Fin 16), s.ms.i.toNat ≤ 0xFFF →
    (∀ mode, decode mode (0xD#4 ++ nibble x ++ nibble y ++ nibble n) = .ok (.drw x y n)) ∧
    (1 ≤ n.val → 0xFFF < s.ms.i.toNat + n.val - 1 →
      exec (.drw x y n) s = .fault (.invalidMemoryAccess 0x1000)) ∧
    (s.ms.i.toNat + n.val ≤ 0x1000 → ¬PcLegal (s.ms.pc.toNat + 2) →
      exec (.drw x y n) s = .fault (.invalidMemoryAccess (s.ms.pc.toNat + 2))) ∧
    (s.ms.i.toNat + n.val ≤ 0x1000 → PcLegal (s.ms.pc.toNat + 2) →
      ∃ (d : Display) (hit : Byte),
        exec (.drw x y n) s = .next (s.completedWith { s.ms with disp := d, v := s.ms.v.set 15 hit }) ∧
        (∀ r c, spriteSets s x y n r c → d.pixel r c = !s.ms.disp.pixel r c) ∧
        (∀ r c, ¬spriteSets s x y n r c → d.pixel r c = s.ms.disp.pixel r c) ∧
        ((∃ r c, spriteSets s x y n r c ∧ s.ms.disp.pixel r c = true) → hit = 1#8) ∧
        ((∀ r c, spriteSets s x y n r c → s.ms.disp.pixel r c = false) → hit = 0#8))

/-- R203: drawing the same sprite twice at the same place restores the buffer, and the second draw sets
VF = 1 if the sprite has a set bit and its coordinates do not come from VF, which the first draw wrote. -/
def Obligations.RedrawingErasesTheSprite : Prop :=
  ∀ (s t u : State) (x y : Reg) (n : Fin 16), x ≠ 15 → y ≠ 15 →
    exec (.drw x y n) s = .next t → exec (.drw x y n) t = .next u →
    u.ms.disp = s.ms.disp ∧
    ((∃ j k, j < n.val ∧ k < 8 ∧ (s.ms.mem.byteAt (s.ms.i.toNat + j)).getLsbD k = true) →
      (∀ r c, spriteSets s x y n r c → s.ms.disp.pixel r c = false) → u.ms.v[15] = 1#8)

/-! ### What only some instructions may change (10_state.md, 20_memory.md) -/

/-- R23, R24: a general register other than the destination changes only where a rule says so: V[x] for the
instructions with a destination, V[0] to V[x] for FX65, and VF for the arithmetic, shift and draw
instructions and, under LOGIC_VF_RESET, the logic ones. R24's lists are the spec's own inference. -/
def Obligations.RegistersChangeOnlyWhereTheRulesSay : Prop :=
  ∀ (i : Instr) (s t : State) (j : Reg), exec i s = .next t → t.ms.v[j] ≠ s.ms.v[j] →
    (∃ y kk, i ∈ [.ldImm j kk, .addImm j kk, .ldReg j y, .orReg j y, .andReg j y, .xorReg j y, .addReg j y,
      .sub j y, .shr j y, .subn j y, .shl j y, .rnd j kk, .ldVxDt j, .ldVxK j]) ∨
    (∃ x : Reg, j.val ≤ x.val ∧ i = .ldVxMem x) ∨
    (j = 15 ∧ ∃ x y n, i ∈ [.addReg x y, .sub x y, .shr x y, .subn x y, .shl x y, .drw x y n]) ∨
    (j = 15 ∧ s.cfg.logicVfReset = true ∧ ∃ x y, i ∈ [.orReg x y, .andReg x y, .xorReg x y])

/-- R25, R33: I changes only by ANNN, FX1E and FX29, and by FX55 and FX65 under LDST_I_INC = x_plus_1; the
delay timer only by FX15 and the sound timer only by FX18. -/
def Obligations.IndexAndTimersChangeOnlyWhereTheRulesSay : Prop :=
  ∀ (i : Instr) (s t : State), exec i s = .next t →
    (t.ms.i ≠ s.ms.i → (∃ nnn, i = .ldI nnn) ∨ (∃ x, i ∈ [.addI x, .ldF x]) ∨
      (s.cfg.ldstIInc = .xPlus1 ∧ ∃ x, i ∈ [.ldMemVx x, .ldVxMem x])) ∧
    (t.ms.dt ≠ s.ms.dt → ∃ x, i = .ldDtVx x) ∧
    (t.ms.st ≠ s.ms.st → ∃ x, i = .ldStVx x)

/-- R32: only CALL and RET change the call stack, and no instruction lowers or raises the depth by more
than 1. -/
def Obligations.OnlyCallAndRetTouchTheStack : Prop :=
  ∀ (i : Instr) (s t : State), exec i s = .next t →
    (t.ms.sp ≠ s.ms.sp → (∃ nnn, i = .call nnn) ∨ i = .ret) ∧
    (t.ms.stack ≠ s.ms.stack → ∃ nnn, i = .call nnn) ∧
    t.ms.sp.val ≤ s.ms.sp.val + 1 ∧ s.ms.sp.val ≤ t.ms.sp.val + 1

/-- R35, R37, R51, R200: among the instructions only CLS and DRW change the display, only FX33 and FX55
change memory, and none changes a key. -/
def Obligations.DisplayMemoryAndKeysChangeOnlyWhereTheRulesSay : Prop :=
  ∀ (i : Instr) (s t : State), exec i s = .next t →
    (t.ms.disp ≠ s.ms.disp → i = .cls ∨ ∃ x y n, i = .drw x y n) ∧
    (t.ms.mem ≠ s.ms.mem → ∃ x, i ∈ [.ldB x, .ldMemVx x]) ∧
    t.ms.key = s.ms.key

/-- R220, R238: a step neither reads nor writes the snapshot buffer, the frame counter or the speed
multiplier: with other values there it ends the same way and leaves those values. The clause t.cfg = s.cfg is
about the model's own field (log entry 1). The two steps compared start at one value of the model's own counter
`draws`, so RND takes one draw in both (log entry 4): that says nothing of two draws of the hardware. -/
def Obligations.StepsIgnoreTheManagerState : Prop :=
  ∀ (s : State) (buf : List Snapshot) (ctr k : Nat),
    (∀ t, step s = .next t →
      t.snapbuf = s.snapbuf ∧ t.frameCtr = s.frameCtr ∧ t.speedK = s.speedK ∧ t.cfg = s.cfg ∧
      step { s with snapbuf := buf, frameCtr := ctr, speedK := k } =
        .next { t with snapbuf := buf, frameCtr := ctr, speedK := k }) ∧
    (∀ e, step s = .fault e → step { s with snapbuf := buf, frameCtr := ctr, speedK := k } = .fault e)

/-! ### Invariants (10_state.md R21) -/

/-- R21, R41: the machine after reset meets every invariant, memory's canonical form among them. The
canonical form is the model's own (log entry 2); the values are the spec's decisions D22 and D23. -/
def Obligations.ResetMeetsTheInvariant : Prop := State.reset.Inv

/-- R21, R84: from every state that meets the invariants, a step that completes leaves a state that meets
them: pc in [0x200, 0xFFE], I at most 0xFFF, every occupied stack slot a legal address, memory canonical. The
canonical form of memory is the model's own (log entry 2). That I stays at most 0xFFF (R25) and that an
occupied slot is a legal address (R101) are inferences of the spec. -/
def Obligations.EveryStepKeepsTheInvariant : Prop :=
  ∀ s t : State, s.Inv → step s = .next t → t.Inv

/-- R21, R232, R236, R237: every operation of the host, on a created or a loaded block and whatever it
returns, preserves the invariants. What R21 itself lists is pc, the depth and the timers. The canonical form
of memory is the model's own (log entry 2); the rising frame indices (R232), the bound on I (R25) and the
legal occupied slots (R101) are inferences of the spec, marked "[derived: ...]"; the buffer's capacity is
R232 and speed_k >= 1 is R237. -/
def Obligations.EveryOperationKeepsTheInvariant : Prop :=
  ∀ (b : Block) (op : Op), b.Inv → (b.perform op).1.Inv

/-- R101: under the invariants RET never raises InvalidMemoryAccess: with a return address on the stack it
returns. It is the spec's own inference (R101, "That cannot happen for an address CALL pushed"). The
canonical form of memory in the invariants is the model's own (log entry 2). -/
def Obligations.RetNeverFaultsOnAPushedAddress : Prop :=
  ∀ s : State, s.Inv → 0 < s.ms.sp.val →
    ∃ t, exec .ret s = .next t ∧ t.ms.sp.val + 1 = s.ms.sp.val ∧ t.Inv

/-! ### Timers and the host's operations (60_exceptions.md, 47_host_operations.md) -/

/-- R262: a tick decrements each timer by 1, floored at 0, independently, and changes nothing else; n ticks
decrement by n. -/
def Obligations.TicksDecrementBothTimersToZero : Prop :=
  ∀ s : State,
    (Block.loaded s).perform .tickTimers = (.loaded { s with ms := { s.ms with
      dt := BitVec.ofNat 8 (s.ms.dt.toNat - 1), st := BitVec.ofNat 8 (s.ms.st.toNat - 1) } }, .ok) ∧
    ∀ n : Nat, Block.run (List.replicate n .tickTimers) (.loaded s) = .loaded { s with ms := { s.ms with
      dt := BitVec.ofNat 8 (s.ms.dt.toNat - n), st := BitVec.ofNat 8 (s.ms.st.toNat - n) } }

/-- R225: set_key writes the one key and nothing else, and an index outside 0..15 is refused with no effect. -/
def Obligations.SetKeyWritesOneKey : Prop :=
  ∀ (s : State) (index : Nat) (pressed : Bool),
    (∀ k : KeyIndex, index = k.val →
      (Block.loaded s).perform (.setKey index pressed) =
        (.loaded { s with ms := { s.ms with key := s.ms.key.set k pressed } }, .ok)) ∧
    (16 ≤ index → (Block.loaded s).perform (.setKey index pressed) =
      (.loaded s, .refused (.keyIndexOutOfRange index)))

/-- R206, R264, R237: display() returns the 2048 bits and sound_active() whether ST > 0, and neither changes
any state; set_speed writes the multiplier and nothing else, and 0 is refused with no effect. -/
def Obligations.ObservationsAndSpeedDoOnlyTheirPart : Prop :=
  ∀ (s : State) (k : Nat),
    (Block.loaded s).perform .display = (.loaded s, .bits s.ms.disp) ∧
    (s.ms.st ≠ 0 → (Block.loaded s).perform .soundActive = (.loaded s, .bool true)) ∧
    (s.ms.st = 0 → (Block.loaded s).perform .soundActive = (.loaded s, .bool false)) ∧
    (1 ≤ k → (Block.loaded s).perform (.setSpeed k) = (.loaded { s with speedK := k }, .ok)) ∧
    (Block.loaded s).perform (.setSpeed 0) = (.loaded s, .refused .zeroMultiplier)

/-- R231: push_snapshot appends a copy of the machine state tagged with the frame counter, the oldest entry
leaving a full buffer, and counts the frame; it never fails and changes no machine state. -/
def Obligations.PushAppendsACopyAndEvictsTheOldest : Prop :=
  ∀ s : State,
    (s.snapbuf.length ≠ s.cfg.snapCap → (Block.loaded s).perform .pushSnapshot =
      (.loaded { s with snapbuf := s.snapbuf ++ [⟨s.ms, s.frameCtr⟩], frameCtr := s.frameCtr + 1 }, .ok)) ∧
    (∀ oldest rest, s.snapbuf = oldest :: rest → s.snapbuf.length = s.cfg.snapCap →
      (Block.loaded s).perform .pushSnapshot =
        (.loaded { s with snapbuf := rest ++ [⟨s.ms, s.frameCtr⟩], frameCtr := s.frameCtr + 1 }, .ok))

/-- R233, R234: rewind removes the newest snapshot and makes its copy the machine state, leaving the frame
counter and the speed multiplier; on an empty buffer it returns BufferEmpty and changes nothing. -/
def Obligations.RewindRestoresTheNewestSnapshot : Prop :=
  ∀ s : State,
    (∀ older newest, s.snapbuf = older ++ [newest] →
      (Block.loaded s).perform .rewind = (.loaded { s with ms := newest.ms, snapbuf := older }, .ok)) ∧
    (s.snapbuf = [] → (Block.loaded s).perform .rewind = (.loaded s, .err .bufferEmpty))

/-- R240: after K pushes into an empty buffer, each followed by any operations other than load, push and
rewind, the n-th rewind restores the state of push K - n + 1 for n up to min(K, SNAP_CAP), and the next one
fails with BufferEmpty; so K <= SNAP_CAP rewinds end at the first push. R240 is the spec's own inference,
"[derived: from rules R231 to R233]". -/
def Obligations.RewindsStepBackThroughThePushes : Prop :=
  ∀ (s : State) (groups : List (List Op)) (b : Block), s.snapbuf = [] → 1 ≤ s.cfg.snapCap →
    (∀ ops ∈ groups, ∀ op ∈ ops, op.keepsSnapshots = true) →
    b = Block.run (pushSchedule groups) (.loaded s) →
    (∀ n, 1 ≤ n → n ≤ min groups.length s.cfg.snapCap →
      ∃ t, Block.run (List.replicate n .rewind) b = .loaded t ∧
        (pushedStates groups (.loaded s))[groups.length - n]? = some t.ms) ∧
    ((Block.run (List.replicate (min groups.length s.cfg.snapCap) .rewind) b).perform .rewind).2 =
      .err .bufferEmpty

/-! ### Reset (70_reset_and_hazards.md) -/

/-- R41, R280: a load of at most 3584 bytes returns Ok and leaves every register, the stack, the timers, the
display and the keys at 0, pc at 0x200, no snapshot and the frame counter 0; the speed multiplier is kept, 1
in a newly created block. The values are the spec's decisions D22 and D23; the clause on `cfg` is the model's
own (log entry 1). -/
def Obligations.LoadResetsEveryRegister : Prop :=
  ∀ (b : Block) (bytes : List Byte), bytes.length ≤ 3584 →
    ∃ t, b.perform (.load bytes) = (.loaded t, .ok) ∧
      (∀ x : Reg, t.ms.v[x] = 0) ∧ t.ms.i = 0 ∧ t.ms.pc = 0x200 ∧
      (∀ k : Fin 16, t.ms.stack[k] = 0) ∧ t.ms.sp = 0 ∧ t.ms.dt = 0 ∧ t.ms.st = 0 ∧
      (∀ r c, t.ms.disp.pixel r c = false) ∧ (∀ k : KeyIndex, t.ms.key[k] = false) ∧
      t.snapbuf = [] ∧ t.frameCtr = 0 ∧ t.speedK = b.speed ∧ t.cfg = b.config

/-- R281: Mem after a load is the ROM from 0x200 up, FONT_DATA at FONT_BASE and 0x00 everywhere else. -/
def Obligations.LoadFillsMemory : Prop :=
  ∀ (b : Block) (bytes : List Byte) (t : State), bytes.length ≤ 3584 → b.config.legal = true →
    b.perform (.load bytes) = (.loaded t, .ok) →
    (∀ (k : Nat) (h : k < bytes.length), t.ms.mem.byteAt (0x200 + k) = bytes[k]) ∧
    (∀ k : Fin 80, t.ms.mem.byteAt (b.config.fontBase.toNat + k.val) = b.config.fontData[k]) ∧
    (∀ a, (a < 0x200 ∨ 0x200 + bytes.length ≤ a) →
      (a < b.config.fontBase.toNat ∨ b.config.fontBase.toNat + 80 ≤ a) → t.ms.mem.byteAt a = 0)

/-- R282, R256: a ROM longer than 3584 bytes returns RomTooLarge and performs no load. -/
def Obligations.OversizedRomIsNotLoaded : Prop :=
  ∀ (b : Block) (bytes : List Byte), 3584 < bytes.length →
    b.perform (.load bytes) = (b, .err .romTooLarge)

/-- R42, R223: before the first successful load every other operation is refused and no machine comes to
exist. -/
def Obligations.NothingRunsBeforeTheFirstLoad : Prop :=
  ∀ (cfg : Config) (op : Op),
    (∀ bytes, op ≠ .load bytes) → (Block.created cfg).perform op = (.created cfg, .refused .noMachine)

/-- R285: from the empty ROM under SYS_MODE = nop, each of 1791 steps is a SYS that advances pc by 2, to
0xFFE, and the 1792nd fails with InvalidMemoryAccess(0x1000); under SYS_MODE = unknown the first step fails
with UnknownOpcode(0x0000). R285 is the spec's own inference. -/
def Obligations.EmptyRomRunsToTheEndOfMemory : Prop :=
  ∀ (cfg : Config) (speedK draws : Nat), cfg.legal = true →
    (cfg.sysMode = .nop → ∀ n ≤ 1791,
      Block.run (List.replicate n .step) (.loaded (State.afterLoad cfg speedK draws [])) =
        .loaded { State.afterLoad cfg speedK draws [] with ms :=
          { (State.afterLoad cfg speedK draws []).ms with pc := BitVec.ofNat 16 (0x200 + 2 * n) } }) ∧
    (cfg.sysMode = .nop →
      ((Block.run (List.replicate 1791 .step) (.loaded (State.afterLoad cfg speedK draws []))).perform .step).2 =
        .err (.invalidMemoryAccess 0x1000)) ∧
    (cfg.sysMode = .unknown →
      ((Block.loaded (State.afterLoad cfg speedK draws [])).perform .step).2 = .err (.unknownOpcode 0x0000))

/-- R291, R102: a jump to its own address is a fixed point of the step, and so of any number of steps; a run at it
has not ended before the first step executes it, and has ended with that step, at the same state. That this ends
a run is the spec's decision D35. -/
def Obligations.JumpToSelfIsAFixedPoint : Prop :=
  ∀ s : State, PcLegal s.ms.pc.toNat → atJumpToSelf s = true →
    step s = .next s ∧ ¬runEnded [] (.loaded s) ∧
    (∀ n, 1 ≤ n → Block.runToEnd (List.replicate n .step) (.loaded s) = (.loaded s, some .jumpToSelf)) ∧
    ∀ n, Block.run (List.replicate n .step) (.loaded s) = .loaded s
end

