-- ==== Sys2Proof/Laws/Decode.lean ====
section
/-! SUPPORT. The fields of encoded words, the word a word's fields put together again, and the bytes of a word. -/

namespace Sys2Proof

/-! ### The fields of each format (30_encoding.md R72, R73) -/

section
variable (op : BitVec 4) (nnn : Addr) (x y n : Fin 16) (kk : Byte)

theorem getLsbD_encodeNNN (i : Nat) :
    (encodeNNN op nnn).getLsbD i = if i < 12 then nnn.getLsbD i else op.getLsbD (i - 12) := by
  simp only [encodeNNN, BitVec.getLsbD_append]

theorem getLsbD_encodeXKK (i : Nat) :
    (encodeXKK op x kk).getLsbD i =
      if i < 8 then kk.getLsbD i else if i - 8 < 4 then (nibble x).getLsbD (i - 8) else op.getLsbD (i - 8 - 4) := by
  simp only [encodeXKK, BitVec.getLsbD_append]

theorem getLsbD_encodeXYN (i : Nat) :
    (encodeXYN op x y n).getLsbD i =
      if i < 4 then (nibble n).getLsbD i else if i - 4 < 4 then (nibble y).getLsbD (i - 4)
      else if i - 4 - 4 < 4 then (nibble x).getLsbD (i - 4 - 4) else op.getLsbD (i - 4 - 4 - 4) := by
  simp only [encodeXYN, BitVec.getLsbD_append]

/-- A field of a word is the bits it is cut from. -/
theorem extractLsb'_eq {w : Word} {lo len : Nat} {v : BitVec len}
    (h : ∀ i, i < len → w.getLsbD (lo + i) = v.getLsbD i) : w.extractLsb' lo len = v := by
  apply BitVec.eq_of_getLsbD_eq
  intro i hi
  simp only [BitVec.getLsbD_extractLsb', hi, decide_true, Bool.true_and]
  exact h i hi

@[simp] theorem opField_encodeNNN : opField (encodeNNN op nnn) = op :=
  extractLsb'_eq fun i hi => by
    have h : 12 + i - 12 = i := by omega
    simp only [getLsbD_encodeNNN, show ¬12 + i < 12 by omega, if_false, h]

@[simp] theorem nnnField_encodeNNN : nnnField (encodeNNN op nnn) = nnn :=
  extractLsb'_eq fun i hi => by
    simp only [getLsbD_encodeNNN, Nat.zero_add, hi, if_true]

@[simp] theorem opField_encodeXKK : opField (encodeXKK op x kk) = op :=
  extractLsb'_eq fun i hi => by
    have h : 12 + i - 8 - 4 = i := by omega
    simp only [getLsbD_encodeXKK, show ¬12 + i < 8 by omega, show ¬12 + i - 8 < 4 by omega, if_false, h]

@[simp] theorem xField_encodeXKK : xField (encodeXKK op x kk) = x := by
  have : (encodeXKK op x kk).extractLsb' 8 4 = nibble x :=
    extractLsb'_eq fun i hi => by
      have h : 8 + i - 8 = i := by omega
      simp only [getLsbD_encodeXKK, show ¬8 + i < 8 by omega, h, hi, if_false, if_true]
  simp only [xField, this, nibble]

@[simp] theorem kkField_encodeXKK : kkField (encodeXKK op x kk) = kk :=
  extractLsb'_eq fun i hi => by
    simp only [getLsbD_encodeXKK, Nat.zero_add, hi, if_true]

@[simp] theorem opField_encodeXYN : opField (encodeXYN op x y n) = op :=
  extractLsb'_eq fun i hi => by
    have h : 12 + i - 4 - 4 - 4 = i := by omega
    simp only [getLsbD_encodeXYN, show ¬12 + i < 4 by omega, show ¬12 + i - 4 < 4 by omega,
      show ¬12 + i - 4 - 4 < 4 by omega, if_false, h]

@[simp] theorem xField_encodeXYN : xField (encodeXYN op x y n) = x := by
  have : (encodeXYN op x y n).extractLsb' 8 4 = nibble x :=
    extractLsb'_eq fun i hi => by
      have h : 8 + i - 4 - 4 = i := by omega
      simp only [getLsbD_encodeXYN, show ¬8 + i < 4 by omega, show ¬8 + i - 4 < 4 by omega, h, hi, if_false,
        if_true]
  simp only [xField, this, nibble]

@[simp] theorem yField_encodeXYN : yField (encodeXYN op x y n) = y := by
  have : (encodeXYN op x y n).extractLsb' 4 4 = nibble y :=
    extractLsb'_eq fun i hi => by
      have h : 4 + i - 4 = i := by omega
      simp only [getLsbD_encodeXYN, show ¬4 + i < 4 by omega, h, hi, if_false, if_true]
  simp only [yField, this, nibble]

@[simp] theorem nField_encodeXYN : nField (encodeXYN op x y n) = n := by
  have : (encodeXYN op x y n).extractLsb' 0 4 = nibble n :=
    extractLsb'_eq fun i hi => by
      simp only [getLsbD_encodeXYN, Nat.zero_add, hi, if_true]
  simp only [nField, this, nibble]

end

/-! ### A word from its fields (R72) -/

section
variable (w : Word)

theorem encodeNNN_fields : encodeNNN (opField w) (nnnField w) = w := by
  apply BitVec.eq_of_getLsbD_eq
  intro i hi
  simp only [encodeNNN, opField, nnnField, BitVec.getLsbD_append, BitVec.getLsbD_extractLsb']
  split
  · simp_all
  · have : i - 12 < 4 := by omega
    have h : 12 + (i - 12) = i := by omega
    simp [this, h]

theorem encodeXKK_fields : encodeXKK (opField w) (xField w) (kkField w) = w := by
  apply BitVec.eq_of_getLsbD_eq
  intro i hi
  simp only [encodeXKK, opField, xField, kkField, nibble, BitVec.ofFin_toFin, BitVec.getLsbD_append,
    BitVec.getLsbD_extractLsb']
  split
  · simp_all
  · split
    · have h : 8 + (i - 8) = i := by omega
      simp_all
    · have h' : i - 8 - 4 < 4 := by omega
      have h : 12 + (i - 8 - 4) = i := by omega
      simp [h, h']

theorem encodeXYN_fields : encodeXYN (opField w) (xField w) (yField w) (nField w) = w := by
  apply BitVec.eq_of_getLsbD_eq
  intro i hi
  simp only [encodeXYN, opField, xField, yField, nField, nibble, BitVec.ofFin_toFin, BitVec.getLsbD_append,
    BitVec.getLsbD_extractLsb']
  split
  · simp_all
  · split
    · have h : 4 + (i - 4) = i := by omega
      simp_all
    · split
      · have h : 8 + (i - 4 - 4) = i := by omega
        simp_all
      · have h' : i - 4 - 4 - 4 < 4 := by omega
        have h : 12 + (i - 4 - 4 - 4) = i := by omega
        simp [h, h']

/-- The two bytes of a word in memory order give the word again (20_memory.md R52). -/
@[simp] theorem wordOfBytes_hiByte_loByte : wordOfBytes (hiByte w) (loByte w) = w := by
  apply BitVec.eq_of_getLsbD_eq
  intro i hi
  simp only [wordOfBytes, hiByte, loByte, BitVec.getLsbD_append, BitVec.getLsbD_extractLsb']
  split
  · simp_all
  · have : i - 8 < 8 := by omega
    have h : 8 + (i - 8) = i := by omega
    simp [this, h]

end

/-! ### What decode can answer -/

/-- A rejected word is rejected as itself (R77). -/
theorem decode_error {mode : SysMode} {w : Word} {e : DecodeError} (h : decode mode w = .error e) :
    e = .unknown w := by
  unfold decode decodeGroup0 decodeGroup8 decodeGroupE decodeGroupF at h
  repeat' split at h
  all_goals first | cases h; rfl | cases h

end Sys2Proof
end

