-- ==== Sys2Proof/Laws/Memory.lean ====
section
/-! SUPPORT. Mem: a byte's read after a write, the canonical form kept, equal memories equal data, and what
the checked accesses answer. -/

namespace Sys2Proof.Machine

/-! ### Reads after writes -/

theorem Memory.byteAt_of_lt {m : Memory} {lo a : Nat} (h : m.wfFrom lo = true) (ha : a < lo) :
    m.byteAt a = Memory.unlisted := by
  induction m generalizing lo with
  | nil => rfl
  | cons c m ih =>
    obtain ⟨a', b'⟩ := c
    simp only [Memory.wfFrom, Bool.and_eq_true, decide_eq_true_eq] at h
    have hne : a ≠ a' := by omega
    simp only [Memory.byteAt, hne, if_false]
    exact ih h.2 (by omega)

theorem Memory.wfFrom_mono {m : Memory} {lo lo' : Nat} (h : m.wfFrom lo = true) (hle : lo' ≤ lo) :
    m.wfFrom lo' = true := by
  cases m with
  | nil => rfl
  | cons c m =>
    obtain ⟨a', b'⟩ := c
    simp only [Memory.wfFrom, Bool.and_eq_true, decide_eq_true_eq] at h ⊢
    exact ⟨⟨⟨by omega, h.1.1.2⟩, h.1.2⟩, h.2⟩

theorem Memory.wfFrom_put {m : Memory} {lo a : Nat} {b : Byte} (h : m.wfFrom lo = true) (hlo : lo ≤ a)
    (ha : a ≤ 0xFFF) : (m.put a b).wfFrom lo = true := by
  induction m generalizing lo with
  | nil =>
    by_cases hb : b = Memory.unlisted
    · simp [Memory.put, hb, Memory.wfFrom]
    · simp only [Memory.put, hb, if_false]
      simpa [Memory.wfFrom, hlo, ha] using hb
  | cons c m ih =>
    obtain ⟨a', b'⟩ := c
    have h' := h
    simp only [Memory.wfFrom, Bool.and_eq_true, decide_eq_true_eq] at h'
    obtain ⟨⟨⟨hlo', hlt'⟩, hb'⟩, htl⟩ := h'
    simp only [Memory.put]
    split
    · split
      · exact h
      · simp only [Memory.wfFrom, Bool.and_eq_true, decide_eq_true_eq]
        refine ⟨⟨⟨hlo, ha⟩, by simpa using ‹¬b = Memory.unlisted›⟩, ⟨⟨by omega, hlt'⟩, hb'⟩, htl⟩
    · split
      · subst a'
        split
        · exact Memory.wfFrom_mono htl (by omega)
        · simp only [Memory.wfFrom, Bool.and_eq_true, decide_eq_true_eq]
          exact ⟨⟨⟨hlo, ha⟩, by simpa using ‹¬b = Memory.unlisted›⟩, htl⟩
      · simp only [Memory.wfFrom, Bool.and_eq_true, decide_eq_true_eq]
        exact ⟨⟨⟨hlo', hlt'⟩, hb'⟩, ih htl (by omega)⟩

/-- A write inside the address space keeps the canonical form. -/
theorem Memory.wf_put {m : Memory} {a : Nat} {b : Byte} (h : m.wf = true) (ha : a ≤ 0xFFF) :
    (m.put a b).wf = true :=
  Memory.wfFrom_put h (Nat.zero_le a) ha

theorem Memory.byteAt_put_from {m : Memory} {lo a a' : Nat} {b : Byte} (h : m.wfFrom lo = true) :
    (m.put a b).byteAt a' = if a' = a then b else m.byteAt a' := by
  induction m generalizing lo with
  | nil =>
    by_cases hb : b = Memory.unlisted
    · simp [Memory.put, hb, Memory.byteAt]
    · simp only [Memory.put, hb, if_false, Memory.byteAt]
  | cons c m ih =>
    obtain ⟨a₀, b₀⟩ := c
    simp only [Memory.wfFrom, Bool.and_eq_true, decide_eq_true_eq] at h
    have below : ∀ k, k < a₀ + 1 → Memory.byteAt m k = Memory.unlisted :=
      fun k hk => Memory.byteAt_of_lt h.2 hk
    simp only [Memory.put]
    split
    · rename_i hlt
      split
      · rename_i hb
        by_cases hk : a' = a
        · subst hk; simp [Memory.byteAt, hb, below a' (by omega)]; omega
        · simp [hk]
      · simp [Memory.byteAt]
    · rename_i hge
      split
      · rename_i heq
        subst heq
        split
        · rename_i hb
          by_cases hk : a' = a
          · subst hk; simp [hb, below a' (by omega)]
          · simp [Memory.byteAt, hk]
        · by_cases hk : a' = a <;> simp [Memory.byteAt, hk]
      · rename_i hne
        simp only [Memory.byteAt, ih h.2]
        by_cases hk : a' = a₀
        · subst hk; simp [Ne.symm hne]
        · simp [hk]

/-- A read after a write: the byte written at its address, the old byte everywhere else. -/
theorem Memory.byteAt_put {m : Memory} {a a' : Nat} {b : Byte} (h : m.wf = true) :
    (m.put a b).byteAt a' = if a' = a then b else m.byteAt a' :=
  Memory.byteAt_put_from h

/-! ### Consecutive bytes -/

theorem Memory.wf_putBytes {m : Memory} {a : Nat} {bs : List Byte} (h : m.wf = true)
    (ha : a + bs.length ≤ 0x1000) : (Memory.putBytes a bs m).wf = true := by
  induction bs generalizing m a with
  | nil => exact h
  | cons b bs ih =>
    simp only [List.length_cons] at ha
    exact ih (Memory.wf_put h (by omega)) (by omega)

/-- Reads after consecutive writes. -/
theorem Memory.byteAt_putBytes {m : Memory} {a a' : Nat} {bs : List Byte} (h : m.wf = true)
    (ha : a + bs.length ≤ 0x1000) :
    (Memory.putBytes a bs m).byteAt a' =
      if a ≤ a' ∧ a' < a + bs.length then bs.getD (a' - a) Memory.unlisted else m.byteAt a' := by
  induction bs generalizing m a with
  | nil =>
    have : ¬(a ≤ a' ∧ a' < a) := by omega
    simp [Memory.putBytes, this]
  | cons b bs ih =>
    simp only [List.length_cons] at ha
    simp only [Memory.putBytes]
    rw [ih (Memory.wf_put h (by omega)) (by omega), Memory.byteAt_put h]
    simp only [List.length_cons]
    by_cases hk : a' = a
    · subst hk; simp
    · by_cases hin : a + 1 ≤ a' ∧ a' < a + 1 + bs.length
      · have : a ≤ a' ∧ a' < a + (bs.length + 1) := by omega
        simp only [hin, this, and_self, if_true]
        obtain ⟨k, hk'⟩ : ∃ k, a' - a = k + 1 := ⟨a' - a - 1, by omega⟩
        have : a' - (a + 1) = k := by omega
        simp [hk', this]
      · have : ¬(a ≤ a' ∧ a' < a + (bs.length + 1)) := by omega
        simp only [hin, this, hk, if_false]

/-- Two memories in canonical form that read the same everywhere are the same data. -/
theorem Memory.ext_from {m m' : Memory} {lo : Nat} (h : m.wfFrom lo = true) (h' : m'.wfFrom lo = true)
    (heq : ∀ a, m.byteAt a = m'.byteAt a) : m = m' := by
  induction m generalizing m' lo with
  | nil =>
    cases m' with
    | nil => rfl
    | cons c m' =>
      obtain ⟨a, b⟩ := c
      have := heq a
      simp only [Memory.wfFrom, Bool.and_eq_true] at h'
      simp [Memory.byteAt] at this
      simp [← this] at h'
  | cons c m ih =>
    obtain ⟨a, b⟩ := c
    cases m' with
    | nil =>
      have := heq a
      simp only [Memory.wfFrom, Bool.and_eq_true] at h
      simp [Memory.byteAt] at this
      simp [this] at h
    | cons c' m' =>
      obtain ⟨a', b'⟩ := c'
      simp only [Memory.wfFrom, Bool.and_eq_true, decide_eq_true_eq, bne_iff_ne] at h h'
      have low : ∀ k, k < a + 1 → Memory.byteAt m k = Memory.unlisted := fun k hk => Memory.byteAt_of_lt h.2 hk
      have low' : ∀ k, k < a' + 1 → Memory.byteAt m' k = Memory.unlisted :=
        fun k hk => Memory.byteAt_of_lt h'.2 hk
      have haa : a = a' := by
        rcases Nat.lt_trichotomy a a' with hlt | heq' | hgt
        · have := heq a
          simp [Memory.byteAt, Nat.ne_of_lt hlt, low' a (by omega)] at this
          exact absurd this h.1.2
        · exact heq'
        · have := heq a'
          simp [Memory.byteAt, Nat.ne_of_lt hgt, low a' (by omega)] at this
          exact absurd this.symm h'.1.2
      subst haa
      have hbb : b = b' := by simpa [Memory.byteAt] using heq a
      subst hbb
      have := ih h.2 h'.2 fun k => by
        by_cases hk : k = a
        · subst hk; rw [low k (by omega), low' k (by omega)]
        · simpa [Memory.byteAt, hk] using heq k
      rw [this]

theorem Memory.ext {m m' : Memory} (h : m.wf = true) (h' : m'.wf = true)
    (heq : ∀ a, m.byteAt a = m'.byteAt a) : m = m' :=
  Memory.ext_from h h' heq

/-! ### The checked accesses (20_memory.md R55 to R57) -/

theorem memRead_eq_ok {m : Memory} {a : Nat} (h : a ≤ 0xFFF) : memRead m a = .ok (m.byteAt a) := by
  have : ¬a > 0xFFF := by omega
  simp [memRead, this]

theorem memWrite_eq_ok {m : Memory} {a : Nat} {b : Byte} (h : a ≤ 0xFFF) : memWrite m a b = .ok (m.put a b) := by
  have : ¬a > 0xFFF := by omega
  simp [memWrite, this]

/-- Reads inside the address space: the bytes in ascending order. -/
theorem readBytes_eq_ok {m : Memory} {a n : Nat} (h : a + n ≤ 0x1000) :
    readBytes m a n = .ok ((List.range' a n).map m.byteAt) := by
  induction n generalizing a with
  | zero => rfl
  | succ n ih =>
    simp [readBytes, memRead_eq_ok (show a ≤ 0xFFF by omega), ih (show a + 1 + n ≤ 0x1000 by omega),
      List.range'_succ]

/-- Reads that leave the address space: the first address out of bounds is reported (R57). -/
theorem readBytes_eq_error {m : Memory} {a n : Nat} (hn : 0 < n) (h : 0x1000 < a + n) :
    readBytes m a n = .error (.invalidMemoryAccess (max a 0x1000)) := by
  induction n generalizing a with
  | zero => omega
  | succ n ih =>
    by_cases ha : a ≤ 0xFFF
    · have hmax : max (a + 1) 0x1000 = max a 0x1000 := by omega
      simp [readBytes, memRead_eq_ok ha, ih (show 0 < n by omega) (show 0x1000 < a + 1 + n by omega), hmax]
    · have h1 : a > 0xFFF := by omega
      have hmax : max a 0x1000 = a := by omega
      simp [readBytes, memRead, h1, hmax]

/-- What a block read answers. -/
theorem readBytes_cases {m : Memory} {a n : Nat} {r : Except Fault (List Byte)} (h : readBytes m a n = r) :
    ((n = 0 ∨ a + n ≤ 0x1000) ∧ r = .ok ((List.range' a n).map m.byteAt)) ∨
    (0 < n ∧ 0x1000 < a + n ∧ r = .error (.invalidMemoryAccess (max a 0x1000))) := by
  by_cases hn : n = 0
  · subst hn; exact .inl ⟨.inl rfl, by simpa [readBytes] using h.symm⟩
  · by_cases hb : a + n ≤ 0x1000
    · exact .inl ⟨.inr hb, by rw [← h, readBytes_eq_ok hb]⟩
    · exact .inr ⟨by omega, by omega, by rw [← h, readBytes_eq_error (by omega) (by omega)]⟩

/-- Writes inside the address space. -/
theorem writeBytes_eq_ok {m : Memory} {a : Nat} {bs : List Byte} (h : a + bs.length ≤ 0x1000) :
    writeBytes m a bs = .ok (Memory.putBytes a bs m) := by
  induction bs generalizing m a with
  | nil => rfl
  | cons b bs ih =>
    simp only [List.length_cons] at h
    simp [writeBytes, memWrite_eq_ok (show a ≤ 0xFFF by omega), Memory.putBytes,
      ih (show a + 1 + bs.length ≤ 0x1000 by omega)]

/-- Writes that leave the address space: the first address out of bounds is reported (R57). -/
theorem writeBytes_eq_error {m : Memory} {a : Nat} {bs : List Byte} (hn : 0 < bs.length)
    (h : 0x1000 < a + bs.length) :
    writeBytes m a bs = .error (.invalidMemoryAccess (max a 0x1000)) := by
  induction bs generalizing m a with
  | nil => simp at hn
  | cons b bs ih =>
    simp only [List.length_cons] at h
    by_cases ha : a ≤ 0xFFF
    · have hmax : max (a + 1) 0x1000 = max a 0x1000 := by omega
      simp only [writeBytes, memWrite_eq_ok ha]
      rw [ih (by omega) (by omega), hmax]
    · have h1 : a > 0xFFF := by omega
      have hmax : max a 0x1000 = a := by omega
      simp [writeBytes, memWrite, h1, hmax]

/-- What a block write answers. -/
theorem writeBytes_cases {m : Memory} {a : Nat} {bs : List Byte} {r : Except Fault Memory}
    (h : writeBytes m a bs = r) :
    ((bs = [] ∨ a + bs.length ≤ 0x1000) ∧ r = .ok (Memory.putBytes a bs m)) ∨
    (0 < bs.length ∧ 0x1000 < a + bs.length ∧ r = .error (.invalidMemoryAccess (max a 0x1000))) := by
  by_cases hn : bs = []
  · subst hn; exact .inl ⟨.inl rfl, by simpa [writeBytes, Memory.putBytes] using h.symm⟩
  · have hpos : 0 < bs.length := List.length_pos_of_ne_nil hn
    by_cases hb : a + bs.length ≤ 0x1000
    · exact .inl ⟨.inr hb, by rw [← h, writeBytes_eq_ok hb]⟩
    · exact .inr ⟨hpos, by omega, by rw [← h, writeBytes_eq_error hpos (by omega)]⟩

/-- A block write that completes keeps the canonical form. -/
theorem writeBytes_wf {m m' : Memory} {a : Nat} {bs : List Byte} (h : writeBytes m a bs = .ok m')
    (hm : m.wf = true) : m'.wf = true := by
  obtain ⟨hb, hr⟩ | ⟨_, _, hr⟩ := writeBytes_cases h
  · cases hr
    obtain rfl | hb := hb
    · exact hm
    · exact Memory.wf_putBytes hm hb
  · cases hr

/-- Mem after a load is in canonical form for every legal configuration and every ROM that fits. -/
theorem Memory.wf_image {cfg : Config} {rom : List Byte} (hc : cfg.legal = true) (hr : rom.length ≤ 3584) :
    (Memory.image cfg rom).wf = true := by
  simp only [Config.legal, Bool.and_eq_true, decide_eq_true_eq] at hc
  refine Memory.wf_putBytes (Memory.wf_putBytes rfl ?_) ?_
  · simp; omega
  · omega

/-- A byte of Mem after a load: the ROM's where it lies, else the font's, else 0x00 (R281). -/
theorem Memory.byteAt_image {cfg : Config} {rom : List Byte} {a : Nat} (hc : cfg.legal = true)
    (hr : rom.length ≤ 3584) :
    (Memory.image cfg rom).byteAt a =
      if 0x200 ≤ a ∧ a < 0x200 + rom.length then rom.getD (a - 0x200) Memory.unlisted
      else if cfg.fontBase.toNat ≤ a ∧ a < cfg.fontBase.toNat + 80 then
        cfg.fontData.toList.getD (a - cfg.fontBase.toNat) Memory.unlisted
      else Memory.unlisted := by
  simp only [Config.legal, Bool.and_eq_true, decide_eq_true_eq] at hc
  have hfont : cfg.fontBase.toNat + cfg.fontData.toList.length ≤ 0x1000 := by simp; omega
  rw [Memory.image, Memory.byteAt_putBytes (Memory.wf_putBytes rfl hfont) (by omega),
    Memory.byteAt_putBytes rfl hfont]
  simp [Memory.byteAt]

end Sys2Proof.Machine
end

