-- ==== Sys2Proof/Laws/State.lean ====
section
/-! SUPPORT. One lemma for each field of State after each update of it, and the accessors' small lemmas, so that no
proof unfolds a record update. -/

namespace Sys2Proof.Machine

/-! ### State.setV -/

section
variable (s : State) (x : Reg) (b : Byte)

@[simp] theorem State.setV_v : (s.setV x b).ms.v = s.ms.v.set x.val b := rfl
@[simp] theorem State.setV_i : (s.setV x b).ms.i = s.ms.i := rfl
@[simp] theorem State.setV_pc : (s.setV x b).ms.pc = s.ms.pc := rfl
@[simp] theorem State.setV_stack : (s.setV x b).ms.stack = s.ms.stack := rfl
@[simp] theorem State.setV_sp : (s.setV x b).ms.sp = s.ms.sp := rfl
@[simp] theorem State.setV_dt : (s.setV x b).ms.dt = s.ms.dt := rfl
@[simp] theorem State.setV_st : (s.setV x b).ms.st = s.ms.st := rfl
@[simp] theorem State.setV_mem : (s.setV x b).ms.mem = s.ms.mem := rfl
@[simp] theorem State.setV_disp : (s.setV x b).ms.disp = s.ms.disp := rfl
@[simp] theorem State.setV_key : (s.setV x b).ms.key = s.ms.key := rfl
@[simp] theorem State.setV_snapbuf : (s.setV x b).snapbuf = s.snapbuf := rfl
@[simp] theorem State.setV_frameCtr : (s.setV x b).frameCtr = s.frameCtr := rfl
@[simp] theorem State.setV_speedK : (s.setV x b).speedK = s.speedK := rfl
@[simp] theorem State.setV_cfg : (s.setV x b).cfg = s.cfg := rfl
@[simp] theorem State.setV_draws : (s.setV x b).draws = s.draws := rfl

end

/-! ### State.setVs -/

section
variable (s : State) (v : Vector Byte 16)

@[simp] theorem State.setVs_v : (s.setVs v).ms.v = v := rfl
@[simp] theorem State.setVs_i : (s.setVs v).ms.i = s.ms.i := rfl
@[simp] theorem State.setVs_pc : (s.setVs v).ms.pc = s.ms.pc := rfl
@[simp] theorem State.setVs_stack : (s.setVs v).ms.stack = s.ms.stack := rfl
@[simp] theorem State.setVs_sp : (s.setVs v).ms.sp = s.ms.sp := rfl
@[simp] theorem State.setVs_dt : (s.setVs v).ms.dt = s.ms.dt := rfl
@[simp] theorem State.setVs_st : (s.setVs v).ms.st = s.ms.st := rfl
@[simp] theorem State.setVs_mem : (s.setVs v).ms.mem = s.ms.mem := rfl
@[simp] theorem State.setVs_disp : (s.setVs v).ms.disp = s.ms.disp := rfl
@[simp] theorem State.setVs_key : (s.setVs v).ms.key = s.ms.key := rfl
@[simp] theorem State.setVs_snapbuf : (s.setVs v).snapbuf = s.snapbuf := rfl
@[simp] theorem State.setVs_frameCtr : (s.setVs v).frameCtr = s.frameCtr := rfl
@[simp] theorem State.setVs_speedK : (s.setVs v).speedK = s.speedK := rfl
@[simp] theorem State.setVs_cfg : (s.setVs v).cfg = s.cfg := rfl
@[simp] theorem State.setVs_draws : (s.setVs v).draws = s.draws := rfl

end

/-! ### State.setI -/

section
variable (s : State) (w : Word)

@[simp] theorem State.setI_v : (s.setI w).ms.v = s.ms.v := rfl
@[simp] theorem State.setI_i : (s.setI w).ms.i = w := rfl
@[simp] theorem State.setI_pc : (s.setI w).ms.pc = s.ms.pc := rfl
@[simp] theorem State.setI_stack : (s.setI w).ms.stack = s.ms.stack := rfl
@[simp] theorem State.setI_sp : (s.setI w).ms.sp = s.ms.sp := rfl
@[simp] theorem State.setI_dt : (s.setI w).ms.dt = s.ms.dt := rfl
@[simp] theorem State.setI_st : (s.setI w).ms.st = s.ms.st := rfl
@[simp] theorem State.setI_mem : (s.setI w).ms.mem = s.ms.mem := rfl
@[simp] theorem State.setI_disp : (s.setI w).ms.disp = s.ms.disp := rfl
@[simp] theorem State.setI_key : (s.setI w).ms.key = s.ms.key := rfl
@[simp] theorem State.setI_snapbuf : (s.setI w).snapbuf = s.snapbuf := rfl
@[simp] theorem State.setI_frameCtr : (s.setI w).frameCtr = s.frameCtr := rfl
@[simp] theorem State.setI_speedK : (s.setI w).speedK = s.speedK := rfl
@[simp] theorem State.setI_cfg : (s.setI w).cfg = s.cfg := rfl
@[simp] theorem State.setI_draws : (s.setI w).draws = s.draws := rfl

end

/-! ### State.withPc -/

section
variable (s : State) (w : Word)

@[simp] theorem State.withPc_v : (s.withPc w).ms.v = s.ms.v := rfl
@[simp] theorem State.withPc_i : (s.withPc w).ms.i = s.ms.i := rfl
@[simp] theorem State.withPc_pc : (s.withPc w).ms.pc = w := rfl
@[simp] theorem State.withPc_stack : (s.withPc w).ms.stack = s.ms.stack := rfl
@[simp] theorem State.withPc_sp : (s.withPc w).ms.sp = s.ms.sp := rfl
@[simp] theorem State.withPc_dt : (s.withPc w).ms.dt = s.ms.dt := rfl
@[simp] theorem State.withPc_st : (s.withPc w).ms.st = s.ms.st := rfl
@[simp] theorem State.withPc_mem : (s.withPc w).ms.mem = s.ms.mem := rfl
@[simp] theorem State.withPc_disp : (s.withPc w).ms.disp = s.ms.disp := rfl
@[simp] theorem State.withPc_key : (s.withPc w).ms.key = s.ms.key := rfl
@[simp] theorem State.withPc_snapbuf : (s.withPc w).snapbuf = s.snapbuf := rfl
@[simp] theorem State.withPc_frameCtr : (s.withPc w).frameCtr = s.frameCtr := rfl
@[simp] theorem State.withPc_speedK : (s.withPc w).speedK = s.speedK := rfl
@[simp] theorem State.withPc_cfg : (s.withPc w).cfg = s.cfg := rfl
@[simp] theorem State.withPc_draws : (s.withPc w).draws = s.draws := rfl

end

/-! ### State.setDt -/

section
variable (s : State) (b : Byte)

@[simp] theorem State.setDt_v : (s.setDt b).ms.v = s.ms.v := rfl
@[simp] theorem State.setDt_i : (s.setDt b).ms.i = s.ms.i := rfl
@[simp] theorem State.setDt_pc : (s.setDt b).ms.pc = s.ms.pc := rfl
@[simp] theorem State.setDt_stack : (s.setDt b).ms.stack = s.ms.stack := rfl
@[simp] theorem State.setDt_sp : (s.setDt b).ms.sp = s.ms.sp := rfl
@[simp] theorem State.setDt_dt : (s.setDt b).ms.dt = b := rfl
@[simp] theorem State.setDt_st : (s.setDt b).ms.st = s.ms.st := rfl
@[simp] theorem State.setDt_mem : (s.setDt b).ms.mem = s.ms.mem := rfl
@[simp] theorem State.setDt_disp : (s.setDt b).ms.disp = s.ms.disp := rfl
@[simp] theorem State.setDt_key : (s.setDt b).ms.key = s.ms.key := rfl
@[simp] theorem State.setDt_snapbuf : (s.setDt b).snapbuf = s.snapbuf := rfl
@[simp] theorem State.setDt_frameCtr : (s.setDt b).frameCtr = s.frameCtr := rfl
@[simp] theorem State.setDt_speedK : (s.setDt b).speedK = s.speedK := rfl
@[simp] theorem State.setDt_cfg : (s.setDt b).cfg = s.cfg := rfl
@[simp] theorem State.setDt_draws : (s.setDt b).draws = s.draws := rfl

end

/-! ### State.setSt -/

section
variable (s : State) (b : Byte)

@[simp] theorem State.setSt_v : (s.setSt b).ms.v = s.ms.v := rfl
@[simp] theorem State.setSt_i : (s.setSt b).ms.i = s.ms.i := rfl
@[simp] theorem State.setSt_pc : (s.setSt b).ms.pc = s.ms.pc := rfl
@[simp] theorem State.setSt_stack : (s.setSt b).ms.stack = s.ms.stack := rfl
@[simp] theorem State.setSt_sp : (s.setSt b).ms.sp = s.ms.sp := rfl
@[simp] theorem State.setSt_dt : (s.setSt b).ms.dt = s.ms.dt := rfl
@[simp] theorem State.setSt_st : (s.setSt b).ms.st = b := rfl
@[simp] theorem State.setSt_mem : (s.setSt b).ms.mem = s.ms.mem := rfl
@[simp] theorem State.setSt_disp : (s.setSt b).ms.disp = s.ms.disp := rfl
@[simp] theorem State.setSt_key : (s.setSt b).ms.key = s.ms.key := rfl
@[simp] theorem State.setSt_snapbuf : (s.setSt b).snapbuf = s.snapbuf := rfl
@[simp] theorem State.setSt_frameCtr : (s.setSt b).frameCtr = s.frameCtr := rfl
@[simp] theorem State.setSt_speedK : (s.setSt b).speedK = s.speedK := rfl
@[simp] theorem State.setSt_cfg : (s.setSt b).cfg = s.cfg := rfl
@[simp] theorem State.setSt_draws : (s.setSt b).draws = s.draws := rfl

end

/-! ### State.setMem -/

section
variable (s : State) (m : Memory)

@[simp] theorem State.setMem_v : (s.setMem m).ms.v = s.ms.v := rfl
@[simp] theorem State.setMem_i : (s.setMem m).ms.i = s.ms.i := rfl
@[simp] theorem State.setMem_pc : (s.setMem m).ms.pc = s.ms.pc := rfl
@[simp] theorem State.setMem_stack : (s.setMem m).ms.stack = s.ms.stack := rfl
@[simp] theorem State.setMem_sp : (s.setMem m).ms.sp = s.ms.sp := rfl
@[simp] theorem State.setMem_dt : (s.setMem m).ms.dt = s.ms.dt := rfl
@[simp] theorem State.setMem_st : (s.setMem m).ms.st = s.ms.st := rfl
@[simp] theorem State.setMem_mem : (s.setMem m).ms.mem = m := rfl
@[simp] theorem State.setMem_disp : (s.setMem m).ms.disp = s.ms.disp := rfl
@[simp] theorem State.setMem_key : (s.setMem m).ms.key = s.ms.key := rfl
@[simp] theorem State.setMem_snapbuf : (s.setMem m).snapbuf = s.snapbuf := rfl
@[simp] theorem State.setMem_frameCtr : (s.setMem m).frameCtr = s.frameCtr := rfl
@[simp] theorem State.setMem_speedK : (s.setMem m).speedK = s.speedK := rfl
@[simp] theorem State.setMem_cfg : (s.setMem m).cfg = s.cfg := rfl
@[simp] theorem State.setMem_draws : (s.setMem m).draws = s.draws := rfl

end

/-! ### State.setDisp -/

section
variable (s : State) (d : Display)

@[simp] theorem State.setDisp_v : (s.setDisp d).ms.v = s.ms.v := rfl
@[simp] theorem State.setDisp_i : (s.setDisp d).ms.i = s.ms.i := rfl
@[simp] theorem State.setDisp_pc : (s.setDisp d).ms.pc = s.ms.pc := rfl
@[simp] theorem State.setDisp_stack : (s.setDisp d).ms.stack = s.ms.stack := rfl
@[simp] theorem State.setDisp_sp : (s.setDisp d).ms.sp = s.ms.sp := rfl
@[simp] theorem State.setDisp_dt : (s.setDisp d).ms.dt = s.ms.dt := rfl
@[simp] theorem State.setDisp_st : (s.setDisp d).ms.st = s.ms.st := rfl
@[simp] theorem State.setDisp_mem : (s.setDisp d).ms.mem = s.ms.mem := rfl
@[simp] theorem State.setDisp_disp : (s.setDisp d).ms.disp = d := rfl
@[simp] theorem State.setDisp_key : (s.setDisp d).ms.key = s.ms.key := rfl
@[simp] theorem State.setDisp_snapbuf : (s.setDisp d).snapbuf = s.snapbuf := rfl
@[simp] theorem State.setDisp_frameCtr : (s.setDisp d).frameCtr = s.frameCtr := rfl
@[simp] theorem State.setDisp_speedK : (s.setDisp d).speedK = s.speedK := rfl
@[simp] theorem State.setDisp_cfg : (s.setDisp d).cfg = s.cfg := rfl
@[simp] theorem State.setDisp_draws : (s.setDisp d).draws = s.draws := rfl

end

/-! ### State.setStack -/

section
variable (s : State) (stack : Vector Word 16) (sp : Fin 17)

@[simp] theorem State.setStack_v : (s.setStack stack sp).ms.v = s.ms.v := rfl
@[simp] theorem State.setStack_i : (s.setStack stack sp).ms.i = s.ms.i := rfl
@[simp] theorem State.setStack_pc : (s.setStack stack sp).ms.pc = s.ms.pc := rfl
@[simp] theorem State.setStack_stack : (s.setStack stack sp).ms.stack = stack := rfl
@[simp] theorem State.setStack_sp : (s.setStack stack sp).ms.sp = sp := rfl
@[simp] theorem State.setStack_dt : (s.setStack stack sp).ms.dt = s.ms.dt := rfl
@[simp] theorem State.setStack_st : (s.setStack stack sp).ms.st = s.ms.st := rfl
@[simp] theorem State.setStack_mem : (s.setStack stack sp).ms.mem = s.ms.mem := rfl
@[simp] theorem State.setStack_disp : (s.setStack stack sp).ms.disp = s.ms.disp := rfl
@[simp] theorem State.setStack_key : (s.setStack stack sp).ms.key = s.ms.key := rfl
@[simp] theorem State.setStack_snapbuf : (s.setStack stack sp).snapbuf = s.snapbuf := rfl
@[simp] theorem State.setStack_frameCtr : (s.setStack stack sp).frameCtr = s.frameCtr := rfl
@[simp] theorem State.setStack_speedK : (s.setStack stack sp).speedK = s.speedK := rfl
@[simp] theorem State.setStack_cfg : (s.setStack stack sp).cfg = s.cfg := rfl
@[simp] theorem State.setStack_draws : (s.setStack stack sp).draws = s.draws := rfl

end

/-! ### State.withKey -/

section
variable (s : State) (k : KeyIndex) (pressed : Bool)

@[simp] theorem State.withKey_v : (s.withKey k pressed).ms.v = s.ms.v := rfl
@[simp] theorem State.withKey_i : (s.withKey k pressed).ms.i = s.ms.i := rfl
@[simp] theorem State.withKey_pc : (s.withKey k pressed).ms.pc = s.ms.pc := rfl
@[simp] theorem State.withKey_stack : (s.withKey k pressed).ms.stack = s.ms.stack := rfl
@[simp] theorem State.withKey_sp : (s.withKey k pressed).ms.sp = s.ms.sp := rfl
@[simp] theorem State.withKey_dt : (s.withKey k pressed).ms.dt = s.ms.dt := rfl
@[simp] theorem State.withKey_st : (s.withKey k pressed).ms.st = s.ms.st := rfl
@[simp] theorem State.withKey_mem : (s.withKey k pressed).ms.mem = s.ms.mem := rfl
@[simp] theorem State.withKey_disp : (s.withKey k pressed).ms.disp = s.ms.disp := rfl
@[simp] theorem State.withKey_key : (s.withKey k pressed).ms.key = s.ms.key.set k.val pressed := rfl
@[simp] theorem State.withKey_snapbuf : (s.withKey k pressed).snapbuf = s.snapbuf := rfl
@[simp] theorem State.withKey_frameCtr : (s.withKey k pressed).frameCtr = s.frameCtr := rfl
@[simp] theorem State.withKey_speedK : (s.withKey k pressed).speedK = s.speedK := rfl
@[simp] theorem State.withKey_cfg : (s.withKey k pressed).cfg = s.cfg := rfl
@[simp] theorem State.withKey_draws : (s.withKey k pressed).draws = s.draws := rfl

end

/-! ### State.withDraw -/

section
variable (s : State)

@[simp] theorem State.withDraw_ms : s.withDraw.ms = s.ms := rfl
@[simp] theorem State.withDraw_snapbuf : s.withDraw.snapbuf = s.snapbuf := rfl
@[simp] theorem State.withDraw_frameCtr : s.withDraw.frameCtr = s.frameCtr := rfl
@[simp] theorem State.withDraw_speedK : s.withDraw.speedK = s.speedK := rfl
@[simp] theorem State.withDraw_cfg : s.withDraw.cfg = s.cfg := rfl
@[simp] theorem State.withDraw_draws : s.withDraw.draws = s.draws + 1 := rfl

end

/-! ### Register reads after register writes -/

section
variable (s : State)

@[simp] theorem State.getV_setV_same (x : Reg) (b : Byte) : (s.setV x b).getV x = b := by
  simp [State.getV]

theorem State.getV_setV_other (x y : Reg) (b : Byte) (h : x ≠ y) : (s.setV x b).getV y = s.getV y := by
  simp [State.getV, Fin.val_ne_of_ne h]

@[simp] theorem State.getV_setI (w : Word) (y : Reg) : (s.setI w).getV y = s.getV y := rfl
@[simp] theorem State.getV_setDt (b : Byte) (y : Reg) : (s.setDt b).getV y = s.getV y := rfl
@[simp] theorem State.getV_setSt (b : Byte) (y : Reg) : (s.setSt b).getV y = s.getV y := rfl
@[simp] theorem State.getV_setMem (m : Memory) (y : Reg) : (s.setMem m).getV y = s.getV y := rfl
@[simp] theorem State.getV_setDisp (d : Display) (y : Reg) : (s.setDisp d).getV y = s.getV y := rfl

/-- VF after a result and its flag is the flag, the destination being VF or not (42_alu.md R143). -/
@[simp] theorem State.getV_setResultAndFlag_VF (x : Reg) (r : Byte) (c : Bool) :
    (s.setResultAndFlag x r c).getV VF = flagByte c := by
  simp [State.setResultAndFlag]

/-- The destination after a result and its flag, if it is not VF (R143). -/
theorem State.getV_setResultAndFlag_dest (x : Reg) (r : Byte) (c : Bool) (h : x ≠ VF) :
    (s.setResultAndFlag x r c).getV x = r := by
  simp [State.setResultAndFlag, State.getV_setV_other _ VF x _ (Ne.symm h)]

end

/-! ### The snapshot manager's updates -/

section
variable (s : State)

@[simp] theorem State.pushSnapshot_ms : s.pushSnapshot.ms = s.ms := rfl
@[simp] theorem State.pushSnapshot_frameCtr : s.pushSnapshot.frameCtr = s.frameCtr + 1 := rfl
@[simp] theorem State.pushSnapshot_speedK : s.pushSnapshot.speedK = s.speedK := rfl
@[simp] theorem State.pushSnapshot_cfg : s.pushSnapshot.cfg = s.cfg := rfl
@[simp] theorem State.pushSnapshot_draws : s.pushSnapshot.draws = s.draws := rfl
@[simp] theorem State.pushSnapshot_snapbuf :
    s.pushSnapshot.snapbuf = evictIfFull s.cfg.snapCap s.snapbuf ++ [s.capture] := rfl
@[simp] theorem State.capture_ms : s.capture.ms = s.ms := rfl
@[simp] theorem State.capture_frame : s.capture.frame = s.frameCtr := rfl

end

end Sys2Proof.Machine
end

