-- ==== Sys2Proof/Laws/Ops.lean ====
section
/-! SUPPORT. What each shared operation can answer, said once: raising, the checked pc, the stack, the fetch, the
operand forms and the flag computations. -/

namespace Sys2Proof.Machine

/-! ### Raising -/

@[simp] theorem attempt_ok {α : Type} (a : α) (k : α → Answer) : attempt (.ok a) k = k a := rfl

@[simp] theorem attempt_error {α : Type} (e : Fault) (k : α → Answer) :
    attempt (.error e) k = .fault e := rfl

/-- A next state comes from a result that did not raise. -/
theorem attempt_next {α : Type} {r : Except Fault α} {k : α → Answer} {t : State}
    (h : attempt r k = .next t) : ∃ a, r = .ok a ∧ k a = .next t := by
  cases r with
  | ok a => exact ⟨a, rfl, h⟩
  | error e => cases h

/-- A fault is the result's own or its continuation's. -/
theorem attempt_fault {α : Type} {r : Except Fault α} {k : α → Answer} {e : Fault}
    (h : attempt r k = .fault e) : r = .error e ∨ ∃ a, r = .ok a ∧ k a = .fault e := by
  cases r with
  | ok a => exact .inr ⟨a, rfl, h⟩
  | error e' => cases h; exact .inl rfl

/-! ### The program counter (30_encoding.md R84) -/

theorem checkPc_ok {t : Nat} (h : PcLegal t) : checkPc t = .ok (BitVec.ofNat 16 t) := by
  simp [checkPc, h]

theorem checkPc_error {t : Nat} (h : ¬PcLegal t) : checkPc t = .error (.invalidMemoryAccess t) := by
  simp only [checkPc, h, if_false]

theorem setPc_legal {t : Nat} (s : State) (h : PcLegal t) :
    setPc t s = .next (s.withPc (BitVec.ofNat 16 t)) := by
  simp [setPc, checkPc_ok h]

theorem setPc_illegal {t : Nat} (s : State) (h : ¬PcLegal t) :
    setPc t s = .fault (.invalidMemoryAccess t) := by
  simp [setPc, checkPc_error h]

/-- Everything a pc write can answer with a next state. -/
theorem setPc_next {t : Nat} {s s' : State} (h : setPc t s = .next s') :
    PcLegal t ∧ s' = s.withPc (BitVec.ofNat 16 t) := by
  by_cases ht : PcLegal t
  · rw [setPc_legal s ht] at h; cases h; exact ⟨ht, rfl⟩
  · rw [setPc_illegal s ht] at h; cases h

theorem setPc_fault {t : Nat} {s : State} {e : Fault} (h : setPc t s = .fault e) :
    ¬PcLegal t ∧ e = .invalidMemoryAccess t := by
  by_cases ht : PcLegal t
  · rw [setPc_legal s ht] at h; cases h
  · rw [setPc_illegal s ht] at h; cases h; exact ⟨ht, rfl⟩

/-- A legal target survives its narrowing to 16 bits. -/
theorem PcLegal.toNat_ofNat {t : Nat} (h : PcLegal t) : (BitVec.ofNat 16 t).toNat = t := by
  have := h.2
  simp; omega

/-- A displaced pc as a 16-bit sum. -/
theorem ofNat_toNat_add (w : Word) (k : Nat) : BitVec.ofNat 16 (w.toNat + k) = w + BitVec.ofNat 16 k := by
  simp [BitVec.ofNat_add]

theorem advance_legal {s : State} (h : PcLegal (s.ms.pc.toNat + 2)) :
    advance s = .next (s.withPc (s.ms.pc + 2#16)) := by
  rw [advance, setPc_legal s h, ofNat_toNat_add]

theorem advance_illegal {s : State} (h : ¬PcLegal (s.ms.pc.toNat + 2)) :
    advance s = .fault (.invalidMemoryAccess (s.ms.pc.toNat + 2)) :=
  setPc_illegal s h

/-- Everything an advance can answer with a next state. -/
theorem advance_next {s s' : State} (h : advance s = .next s') :
    PcLegal (s.ms.pc.toNat + 2) ∧ s' = s.withPc (s.ms.pc + 2#16) := by
  obtain ⟨hl, rfl⟩ := setPc_next h
  exact ⟨hl, by rw [ofNat_toNat_add]⟩

/-- Everything a skip can answer with a next state. -/
theorem skipIf_next {c : Bool} {s s' : State} (h : skipIf c s = .next s') :
    PcLegal (s.ms.pc.toNat + if c then 4 else 2) ∧ s' = s.withPc (s.ms.pc + if c then 4#16 else 2#16) := by
  obtain ⟨hl, rfl⟩ := setPc_next h
  refine ⟨hl, ?_⟩
  rw [ofNat_toNat_add]
  cases c <;> rfl

/-! ### The call stack (10_state.md R30, R31) -/

theorem State.push_ok {w : Word} {s t : State} (h : s.push w = .ok t) :
    ∃ hsp : s.ms.sp.val < 16,
      t = s.setStack (s.ms.stack.set s.ms.sp.val w) ⟨s.ms.sp.val + 1, by omega⟩ := by
  unfold State.push at h
  split at h
  · cases h; exact ⟨‹_›, rfl⟩
  · cases h

theorem State.push_error {w : Word} {s : State} {e : Fault} (h : s.push w = .error e) :
    s.ms.sp.val = 16 ∧ e = .stackOverflow := by
  unfold State.push at h
  split at h
  · cases h
  · cases h; exact ⟨by omega, rfl⟩

theorem State.pop_ok {s t : State} {w : Word} (h : s.pop = .ok (w, t)) :
    ∃ hsp : 0 < s.ms.sp.val,
      w = s.ms.stack[s.ms.sp.val - 1]'(by omega) ∧ t = s.setStack s.ms.stack ⟨s.ms.sp.val - 1, by omega⟩ := by
  unfold State.pop at h
  split at h
  · cases h; exact ⟨‹_›, rfl, rfl⟩
  · cases h

theorem State.pop_error {s : State} {e : Fault} (h : s.pop = .error e) :
    s.ms.sp.val = 0 ∧ e = .stackUnderflow := by
  unfold State.pop at h
  split at h
  · cases h
  · cases h; exact ⟨by omega, rfl⟩

/-! ### Fetch (30_encoding.md R80) -/

/-- The fetch never raises while pc is legal (R80). -/
theorem fetchWord_legal {s : State} (h : PcLegal s.ms.pc.toNat) :
    fetchWord s = .ok (wordOfBytes (s.ms.mem.byteAt s.ms.pc.toNat) (s.ms.mem.byteAt (s.ms.pc.toNat + 1))) := by
  have := h.2
  simp [fetchWord, memRead_eq_ok (show s.ms.pc.toNat ≤ 0xFFF by omega),
    memRead_eq_ok (show s.ms.pc.toNat + 1 ≤ 0xFFF by omega)]

/-- Everything a fetch can answer: the word at pc, or InvalidMemoryAccess with the first byte's address out of
bounds (R57, R80). -/
theorem fetchWord_cases {s : State} {r : Except Fault Word} (h : fetchWord s = r) :
    (s.ms.pc.toNat + 1 ≤ 0xFFF ∧
      r = .ok (wordOfBytes (s.ms.mem.byteAt s.ms.pc.toNat) (s.ms.mem.byteAt (s.ms.pc.toNat + 1)))) ∨
    (0xFFF < s.ms.pc.toNat + 1 ∧ r = .error (.invalidMemoryAccess (max s.ms.pc.toNat 0x1000))) := by
  by_cases h1 : s.ms.pc.toNat + 1 ≤ 0xFFF
  · exact .inl ⟨h1, by rw [← h]; simp [fetchWord, memRead_eq_ok (show s.ms.pc.toNat ≤ 0xFFF by omega), memRead_eq_ok h1]⟩
  · refine .inr ⟨by omega, ?_⟩
    rw [← h]
    by_cases h0 : s.ms.pc.toNat ≤ 0xFFF
    · have hmax : max s.ms.pc.toNat 0x1000 = s.ms.pc.toNat + 1 := by omega
      have h1' : s.ms.pc.toNat + 1 > 0xFFF := by omega
      have h0' : ¬s.ms.pc.toNat > 0xFFF := by omega
      simp only [fetchWord, memRead, h0', h1', if_true, if_false, hmax]
    · have hmax : max s.ms.pc.toNat 0x1000 = s.ms.pc.toNat := by omega
      have h0' : s.ms.pc.toNat > 0xFFF := by omega
      simp only [fetchWord, memRead, h0', if_true, hmax]

/-! ### Operand forms -/

theorem indexAfterBlock_ok {x : Reg} {s t : State} (h : indexAfterBlock x s = .ok t) :
    (s.cfg.ldstIInc = .none ∧ t = s) ∨
    (s.cfg.ldstIInc = .xPlus1 ∧ s.ms.i.toNat + x.val + 1 ≤ 0xFFF ∧
      t = s.setI (BitVec.ofNat 16 (s.ms.i.toNat + x.val + 1))) := by
  unfold indexAfterBlock at h
  split at h
  · cases h; exact .inl ⟨‹_›, rfl⟩
  · split at h
    · cases h
    · cases h; exact .inr ⟨‹_›, by omega, rfl⟩

/-- Register `j` after a block of bytes was loaded from register `k` up. -/
theorem getElem_loadBlock {k j : Nat} {bs : List Byte} {v : Vector Byte 16} (hj : j < 16) :
    (loadBlock k bs v)[j] = if k ≤ j ∧ j < k + bs.length then bs.getD (j - k) 0 else v[j] := by
  induction bs generalizing k v with
  | nil =>
    have : ¬(k ≤ j ∧ j < k) := by omega
    simp [loadBlock, this]
  | cons b bs ih =>
    simp only [loadBlock, ih, List.length_cons, Vector.getElem_setIfInBounds]
    by_cases hkj : k = j
    · subst hkj; simp
    · by_cases hin : k + 1 ≤ j ∧ j < k + 1 + bs.length
      · have : k ≤ j ∧ j < k + (bs.length + 1) := by omega
        obtain ⟨d, hd⟩ : ∃ d, j - k = d + 1 := ⟨j - k - 1, by omega⟩
        have hd' : j - (k + 1) = d := by omega
        simp only [hin, this, and_self, if_true, hd, hd', List.getD_cons_succ]
      · have : ¬(k ≤ j ∧ j < k + (bs.length + 1)) := by omega
        simp only [hin, this, if_false, hkj]

@[simp] theorem length_registerBlock (x : Reg) (v : Vector Byte 16) : (registerBlock x v).length = x.val + 1 := by
  simp [registerBlock]

/-- The `k`-th byte FX55 stores is V[k]. -/
theorem getD_registerBlock {x : Reg} {v : Vector Byte 16} {k : Nat} (hk : k ≤ x.val) (d : Byte) :
    (registerBlock x v).getD k d = v[k]'(by omega) := by
  simp [registerBlock, List.getD, Nat.lt_succ_of_le hk]

@[simp] theorem length_bcdDigits (b : Byte) : (bcdDigits b).length = 3 := by simp [bcdDigits]

theorem fontAddress_le {cfg : Config} (h : cfg.legal = true) (b : Byte) : fontAddress cfg b ≤ 0x1FB := by
  simp only [Config.legal, Bool.and_eq_true, decide_eq_true_eq] at h
  have hb : (b &&& 0x0F#8).toNat ≤ 15 := by
    rw [BitVec.toNat_and]
    exact Nat.and_le_right
  simp only [fontAddress]; omega

theorem lowestKey_none {s : State} : lowestKey s = none ↔ ∀ k : KeyIndex, s.isKeyPressed k = false := by
  simp [lowestKey, List.find?_eq_none]

theorem lowestKey_some {s : State} {k : KeyIndex} (h : lowestKey s = some k) :
    s.isKeyPressed k = true ∧ ∀ j : KeyIndex, j < k → s.isKeyPressed j = false := by
  have hp := List.find?_some h
  refine ⟨hp, fun j hj => ?_⟩
  unfold lowestKey at h
  rw [List.find?_eq_some_iff_getElem] at h
  obtain ⟨_, i, hi, hik, hbefore⟩ := h
  have hki : k.val = i := by simpa using congrArg Fin.val hik.symm
  have := hbefore j.val (by rw [← hki]; exact hj)
  simpa using this

/-! ### Results and flags (42_alu.md R142) -/

theorem addByte_eq (a b : Byte) : addByte a b = a + b := by
  apply BitVec.eq_of_toNat_eq
  simp [addByte]

theorem subByte_eq (a b : Byte) : subByte a b = a - b := by
  apply BitVec.eq_of_toNat_eq
  have ha := a.isLt
  have hb := b.isLt
  simp only [subByte, BitVec.toNat_ofNat, BitVec.toNat_sub]
  omega

theorem shrByte_eq (a : Byte) : shrByte a = a >>> 1 := by
  apply BitVec.eq_of_toNat_eq
  have ha := a.isLt
  simp only [shrByte, BitVec.toNat_ofNat, BitVec.toNat_ushiftRight, Nat.shiftRight_eq_div_pow]
  omega

theorem shlByte_eq (a : Byte) : shlByte a = a <<< 1 := by
  apply BitVec.eq_of_toNat_eq
  simp [shlByte, Nat.shiftLeft_eq]

end Sys2Proof.Machine
end

