-- ==== Sys2Proof/Laws/Draw.lean ====
section
/-! SUPPORT. What drawing a sprite does to every pixel and to the collision flag: the loops of 45_display.md R203
as one closed form each. -/

namespace Sys2Proof.Machine

/-- Two displays with the same pixels are the same display. -/
theorem Display.ext {d d' : Display} (h : ∀ r c, d.pixel r c = d'.pixel r c) : d = d' := by
  apply Vector.ext
  intro r hr
  apply Vector.ext
  intro c hc
  exact h ⟨r, hr⟩ ⟨c, hc⟩

@[simp] theorem Display.pixel_blank (r : Fin 32) (c : Fin 64) : Display.blank.pixel r c = false := by
  simp [Display.blank, Display.pixel]

theorem Display.pixel_toggle (d : Display) (r r' : Fin 32) (c c' : Fin 64) :
    (d.toggle r c).pixel r' c' = if r' = r ∧ c' = c then !d.pixel r' c' else d.pixel r' c' := by
  by_cases hr : r' = r
  · subst hr
    by_cases hc : c' = c
    · subst hc; simp [Display.toggle, Display.pixel]
    · have : c.val ≠ c'.val := fun h => hc (Fin.ext h.symm)
      simp [Display.toggle, Display.pixel, hc, Vector.getElem_set_ne _ _ this]
  · have : r.val ≠ r'.val := fun h => hr (Fin.ext h.symm)
    simp [Display.toggle, Display.pixel, hr, Vector.getElem_set_ne _ _ this]

/-! ### One row -/

/-- A set bit of a sprite row lands on pixel `(r, c)`, among the columns `ks`. -/
def rowCovers (x0 : Nat) (py : Fin 32) (row : Byte) (ks : List Nat) (r : Fin 32) (c : Fin 64) : Prop :=
  r = py ∧ ∃ k ∈ ks, row.getLsbD (7 - k) = true ∧ c = Fin.ofNat 64 (x0 + k)

theorem drawRow_fold (x0 : Nat) (py : Fin 32) (row : Byte) (ks : List Nat) (cv : Canvas)
    (hnd : ks.Pairwise fun a b => Fin.ofNat 64 (x0 + a) ≠ Fin.ofNat 64 (x0 + b)) :
    (∀ r c, rowCovers x0 py row ks r c →
      (ks.foldl (fun cv k => plot (row.getLsbD (7 - k)) py (Fin.ofNat 64 (x0 + k)) cv) cv).1.pixel r c
        = !cv.1.pixel r c) ∧
    (∀ r c, ¬rowCovers x0 py row ks r c →
      (ks.foldl (fun cv k => plot (row.getLsbD (7 - k)) py (Fin.ofNat 64 (x0 + k)) cv) cv).1.pixel r c
        = cv.1.pixel r c) ∧
    ((ks.foldl (fun cv k => plot (row.getLsbD (7 - k)) py (Fin.ofNat 64 (x0 + k)) cv) cv).2 = true ↔
      cv.2 = true ∨ ∃ r c, rowCovers x0 py row ks r c ∧ cv.1.pixel r c = true) := by
  induction ks generalizing cv with
  | nil => simp [rowCovers]
  | cons k ks ih =>
    rw [List.pairwise_cons] at hnd
    obtain ⟨hk, hnd⟩ := hnd
    by_cases hb : row.getLsbD (7 - k) = true
    · have notLater : ¬rowCovers x0 py row ks py (Fin.ofNat 64 (x0 + k)) := by
        rintro ⟨_, j, hj, _, hc⟩
        exact hk j hj hc
      have splitCover : ∀ r c, rowCovers x0 py row (k :: ks) r c ↔
          (r = py ∧ c = Fin.ofNat 64 (x0 + k)) ∨ rowCovers x0 py row ks r c := by
        intro r c
        simp only [rowCovers, List.mem_cons, exists_eq_or_imp, hb, true_and]
        tauto
      have ih' := ih (plot true py (Fin.ofNat 64 (x0 + k)) cv) hnd
      have hpix : ∀ r c, (plot true py (Fin.ofNat 64 (x0 + k)) cv).1.pixel r c =
          if r = py ∧ c = Fin.ofNat 64 (x0 + k) then !cv.1.pixel r c else cv.1.pixel r c :=
        fun r c => Display.pixel_toggle _ _ _ _ _
      simp only [List.foldl_cons, hb]
      refine ⟨fun r c hcov => ?_, fun r c hcov => ?_, ?_⟩
      · by_cases hhere : r = py ∧ c = Fin.ofNat 64 (x0 + k)
        · obtain ⟨rfl, rfl⟩ := hhere
          rw [ih'.2.1 _ _ notLater, hpix]; simp
        · rw [ih'.1 _ _ (((splitCover r c).1 hcov).resolve_left hhere), hpix, if_neg hhere]
      · rw [splitCover, not_or] at hcov
        rw [ih'.2.1 _ _ hcov.2, hpix, if_neg hcov.1]
      · rw [ih'.2.2]
        simp only [plot, if_true, Bool.or_eq_true]
        constructor
        · rintro ((h | h) | ⟨r, c, hcov, hset⟩)
          · exact .inl h
          · exact .inr ⟨_, _, (splitCover _ _).2 (.inl ⟨rfl, rfl⟩), h⟩
          · refine .inr ⟨r, c, (splitCover _ _).2 (.inr hcov), ?_⟩
            have hne : ¬(r = py ∧ c = Fin.ofNat 64 (x0 + k)) := by
              rintro ⟨rfl, rfl⟩; exact notLater hcov
            have := hpix r c
            rw [if_neg hne] at this
            rw [← this]; exact hset
        · rintro (h | ⟨r, c, hcov, hset⟩)
          · exact .inl (.inl h)
          · rcases (splitCover r c).1 hcov with ⟨rfl, rfl⟩ | hlater
            · exact .inl (.inr hset)
            · refine .inr ⟨r, c, hlater, ?_⟩
              have hne : ¬(r = py ∧ c = Fin.ofNat 64 (x0 + k)) := by
                rintro ⟨rfl, rfl⟩; exact notLater hlater
              have := hpix r c
              rw [if_neg hne] at this
              exact this.trans hset
    · have hb' : row.getLsbD (7 - k) = false := by simpa using hb
      have sameCover : ∀ r c, rowCovers x0 py row (k :: ks) r c ↔ rowCovers x0 py row ks r c := by
        intro r c
        simp [rowCovers, hb']
      simpa [List.foldl_cons, hb', plot, sameCover] using ih cv hnd

/-- The eight columns of a row are eight distinct columns modulo 64 (R204). -/
theorem columns_distinct (x0 : Nat) :
    (List.range 8).Pairwise fun a b => Fin.ofNat 64 (x0 + a) ≠ Fin.ofNat 64 (x0 + b) := by
  have : (List.range 8).Pairwise fun a b => a < b ∧ b < 8 := by decide
  refine this.imp ?_
  rintro a b ⟨hab, hb⟩ heq
  have := congrArg Fin.val heq
  simp only [Fin.val_ofNat] at this
  omega

/-! ### The whole sprite -/

/-- A set bit of the sprite lands on pixel `(r, c)` (R203). -/
def spriteCovers (x0 y : Nat) (rows : List Byte) (r : Fin 32) (c : Fin 64) : Prop :=
  ∃ j k : Nat, ∃ row : Byte, rows[j]? = some row ∧ k < 8 ∧ row.getLsbD (7 - k) = true ∧
    r = Fin.ofNat 32 (y + j) ∧ c = Fin.ofNat 64 (x0 + k)

theorem spriteCovers_cons (x0 y : Nat) (row : Byte) (rows : List Byte) (r : Fin 32) (c : Fin 64) :
    spriteCovers x0 y (row :: rows) r c ↔
      rowCovers x0 (Fin.ofNat 32 y) row (List.range 8) r c ∨ spriteCovers x0 (y + 1) rows r c := by
  constructor
  · rintro ⟨j, k, row', hrow, hk, hbit, hr, hc⟩
    cases j with
    | zero =>
      simp only [List.getElem?_cons_zero, Option.some.injEq] at hrow
      subst hrow
      exact .inl ⟨by simpa using hr, k, by simpa using hk, hbit, hc⟩
    | succ j =>
      refine .inr ⟨j, k, row', by simpa using hrow, hk, hbit, ?_, hc⟩
      rw [hr]; congr 1; omega
  · rintro (⟨hr, k, hk, hbit, hc⟩ | ⟨j, k, row', hrow, hk, hbit, hr, hc⟩)
    · exact ⟨0, k, row, rfl, by simpa using hk, hbit, by simpa using hr, hc⟩
    · refine ⟨j + 1, k, row', by simpa using hrow, hk, hbit, ?_, hc⟩
      rw [hr]; congr 1; omega

theorem drawRows_closed_form (x0 y : Nat) (rows : List Byte) (cv : Canvas) (hlen : rows.length ≤ 32) :
    (∀ r c, spriteCovers x0 y rows r c → (drawRows x0 y rows cv).1.pixel r c = !cv.1.pixel r c) ∧
    (∀ r c, ¬spriteCovers x0 y rows r c → (drawRows x0 y rows cv).1.pixel r c = cv.1.pixel r c) ∧
    ((drawRows x0 y rows cv).2 = true ↔
      cv.2 = true ∨ ∃ r c, spriteCovers x0 y rows r c ∧ cv.1.pixel r c = true) := by
  induction rows generalizing y cv with
  | nil => simp [spriteCovers, drawRows]
  | cons row rows ih =>
    simp only [List.length_cons] at hlen
    have one := drawRow_fold x0 (Fin.ofNat 32 y) row (List.range 8) cv (columns_distinct x0)
    have rest := ih (y + 1) (drawColumns x0 (Fin.ofNat 32 y) row cv) (by omega)
    have exclusive : ∀ r c, rowCovers x0 (Fin.ofNat 32 y) row (List.range 8) r c →
        ¬spriteCovers x0 (y + 1) rows r c := by
      rintro r c ⟨hr, -⟩ ⟨j, k, row', hrow, -, -, hr', -⟩
      have hj : j < rows.length := (List.getElem?_eq_some_iff.1 hrow).1
      have := congrArg Fin.val (hr.symm.trans hr')
      simp only [Fin.val_ofNat] at this
      omega
    simp only [drawRows]
    refine ⟨fun r c hcov => ?_, fun r c hcov => ?_, ?_⟩
    · rcases (spriteCovers_cons ..).1 hcov with hhere | hlater
      · rw [rest.2.1 _ _ (exclusive r c hhere)]
        exact one.1 _ _ hhere
      · rw [rest.1 _ _ hlater]
        congr 1
        exact one.2.1 _ _ fun hhere => exclusive r c hhere hlater
    · rw [spriteCovers_cons, not_or] at hcov
      rw [rest.2.1 _ _ hcov.2]
      exact one.2.1 _ _ hcov.1
    · rw [rest.2.2]
      simp only [drawColumns, one.2.2]
      constructor
      · rintro ((h | ⟨r, c, hcov, hset⟩) | ⟨r, c, hcov, hset⟩)
        · exact .inl h
        · exact .inr ⟨r, c, (spriteCovers_cons ..).2 (.inl hcov), hset⟩
        · refine .inr ⟨r, c, (spriteCovers_cons ..).2 (.inr hcov), ?_⟩
          rw [one.2.1 _ _ fun hhere => exclusive r c hhere hcov] at hset
          exact hset
      · rintro (h | ⟨r, c, hcov, hset⟩)
        · exact .inl (.inl h)
        · rcases (spriteCovers_cons ..).1 hcov with hhere | hlater
          · exact .inl (.inr ⟨r, c, hhere, hset⟩)
          · refine .inr ⟨r, c, hlater, ?_⟩
            rw [one.2.1 _ _ fun hhere => exclusive r c hhere hlater]
            exact hset

/-- Every pixel after a sprite of at most 15 rows is drawn: toggled where a set bit lands, unchanged
elsewhere; and the flag says whether a set bit landed on a set pixel (R203 to R205). -/
theorem drawSprite_closed_form (x0 y0 : Nat) (rows : List Byte) (d : Display) (hlen : rows.length ≤ 32) :
    (∀ r c, spriteCovers x0 y0 rows r c → (drawSprite x0 y0 rows d).1.pixel r c = !d.pixel r c) ∧
    (∀ r c, ¬spriteCovers x0 y0 rows r c → (drawSprite x0 y0 rows d).1.pixel r c = d.pixel r c) ∧
    ((drawSprite x0 y0 rows d).2 = true ↔ ∃ r c, spriteCovers x0 y0 rows r c ∧ d.pixel r c = true) := by
  simpa [drawSprite] using drawRows_closed_form x0 y0 rows (d, false) hlen

end Sys2Proof.Machine
end

