-- ==== Sys2Proof/Laws/Exec.lean ====
section
/-! SUPPORT. What an instruction that completes can do, said once for all of exec: `Effect i s t` lists the
shapes a next state can have, and `exec_next` is the inversion every frame and invariant proof starts from. -/

namespace Sys2Proof.Machine

/-- A logic result changes the registers only. -/
theorem setLogicResult_eq (s : State) (x : Reg) (r : Byte) :
    s.setLogicResult x r = { s with ms := { s.ms with v := (s.setLogicResult x r).ms.v } } := by
  unfold State.setLogicResult; split <;> rfl

/-- A register write changes its own register only. -/
theorem eq_of_set_ne {v : Vector Byte 16} {x j : Reg} {b : Byte} (h : (v.set x b)[j] ≠ v[j]) : j = x := by
  by_contra hne
  exact h (Vector.getElem_set_ne _ _ fun heq => hne (Fin.ext heq.symm))

/-- A result and a flag change their register and VF only. -/
theorem eq_of_setResultAndFlag_ne {s : State} {x j : Reg} {r : Byte} {c : Bool}
    (h : (s.setResultAndFlag x r c).ms.v[j] ≠ s.ms.v[j]) : j = x ∨ j = 15 := by
  by_cases hj : j = 15
  · exact .inr hj
  · refine .inl (eq_of_set_ne (b := r) (v := s.ms.v) fun he => h ?_)
    have hne : (15 : Nat) ≠ j.val := fun heq => hj (Fin.ext heq.symm)
    rw [← he]; exact Vector.getElem_set_ne (by decide) _ hne

/-- A logic result changes its register, and VF only under LOGIC_VF_RESET. -/
theorem eq_of_setLogicResult_ne {s : State} {x j : Reg} {r : Byte}
    (h : (s.setLogicResult x r).ms.v[j] ≠ s.ms.v[j]) : j = x ∨ (j = 15 ∧ s.cfg.logicVfReset = true) := by
  cases hc : s.cfg.logicVfReset
  · rw [State.setLogicResult, hc] at h; exact .inl (eq_of_set_ne h)
  · rw [State.setLogicResult, hc] at h
    exact (eq_of_setResultAndFlag_ne (c := false) h).imp_right fun hj => ⟨hj, rfl⟩

/-- The shapes of a completed instruction: `Effect i s t` says how `t` differs from `s`, and by which
instructions. -/
inductive Effect : Instr → State → State → Prop
  /-- Registers, then pc + 2. -/
  | registers {i : Instr} {s : State} (v : Vector Byte 16) (legal : PcLegal (s.ms.pc.toNat + 2))
      (changes : ∀ j : Reg, v[j] ≠ s.ms.v[j] →
        (∃ y kk, i ∈ [.ldImm j kk, .addImm j kk, .ldReg j y, .orReg j y, .andReg j y, .xorReg j y,
          .addReg j y, .sub j y, .shr j y, .subn j y, .shl j y, .ldVxDt j, .ldVxK j]) ∨
        (j = 15 ∧ ∃ x y, i ∈ [.addReg x y, .sub x y, .shr x y, .subn x y, .shl x y]) ∨
        (j = 15 ∧ s.cfg.logicVfReset = true ∧ ∃ x y, i ∈ [.orReg x y, .andReg x y, .xorReg x y])) :
      Effect i s (s.completedWith { s.ms with v := v })
  /-- pc only: SYS, the jumps and the skips. -/
  | pcOnly {i : Instr} {s : State} (t : Nat) (legal : PcLegal t) : Effect i s (s.withPc (BitVec.ofNat 16 t))
  /-- Nothing: the wait for a key. -/
  | waits {x : Reg} {s : State} : Effect (.ldVxK x) s s
  | clears {s : State} (legal : PcLegal (s.ms.pc.toNat + 2)) :
      Effect .cls s (s.completedWith { s.ms with disp := Display.blank })
  | returns {s : State} (pushed : 0 < s.ms.sp.val) (legal : PcLegal s.ms.stack[s.ms.sp.val - 1].toNat) :
      Effect .ret s { s with ms := { s.ms with
        sp := ⟨s.ms.sp.val - 1, by omega⟩, pc := s.ms.stack[s.ms.sp.val - 1] } }
  | calls {nnn : Addr} {s : State} (room : s.ms.sp.val < 16) (legal : PcLegal (s.ms.pc.toNat + 2))
      (target : PcLegal nnn.toNat) :
      Effect (.call nnn) s { s with ms := { s.ms with
        stack := s.ms.stack.set s.ms.sp.val (s.ms.pc + 2#16), sp := ⟨s.ms.sp.val + 1, by omega⟩,
        pc := BitVec.ofNat 16 nnn.toNat } }
  | draws {x : Reg} {kk : Byte} {s : State} (legal : PcLegal (s.ms.pc.toNat + 2)) (b : Byte) :
      Effect (.rnd x kk) s { s.completedWith { s.ms with v := s.ms.v.set x b } with draws := s.draws + 1 }
  | sprite {x y : Reg} {n : Fin 16} {s : State} (legal : PcLegal (s.ms.pc.toNat + 2)) (d : Display) (b : Byte) :
      Effect (.drw x y n) s (s.completedWith { s.ms with v := s.ms.v.set 15 b, disp := d })
  | delay {x : Reg} {s : State} (legal : PcLegal (s.ms.pc.toNat + 2)) (b : Byte) :
      Effect (.ldDtVx x) s (s.completedWith { s.ms with dt := b })
  | sound {x : Reg} {s : State} (legal : PcLegal (s.ms.pc.toNat + 2)) (b : Byte) :
      Effect (.ldStVx x) s (s.completedWith { s.ms with st := b })
  /-- The index register, then pc + 2. -/
  | index {i : Instr} {s : State} (legal : PcLegal (s.ms.pc.toNat + 2)) (w : Word)
      (written : (∃ nnn, i = .ldI nnn) ∨ (∃ x, i ∈ [.addI x, .ldF x])) (bound : s.cfg.legal = true → w.toNat ≤ 0xFFF) :
      Effect i s (s.completedWith { s.ms with i := w })
  | digits {x : Reg} {s : State} (legal : PcLegal (s.ms.pc.toNat + 2)) (m : Memory)
      (wf : s.ms.mem.wf = true → m.wf = true) : Effect (.ldB x) s (s.completedWith { s.ms with mem := m })
  | stores {x : Reg} {s : State} (legal : PcLegal (s.ms.pc.toNat + 2)) (m : Memory)
      (wf : s.ms.mem.wf = true → m.wf = true) (w : Word)
      (index : w = s.ms.i ∨ (s.cfg.ldstIInc = .xPlus1 ∧ w.toNat ≤ 0xFFF)) :
      Effect (.ldMemVx x) s (s.completedWith { s.ms with mem := m, i := w })
  | loads {x : Reg} {s : State} (legal : PcLegal (s.ms.pc.toNat + 2)) (v : Vector Byte 16)
      (changes : ∀ j : Reg, v[j] ≠ s.ms.v[j] → j.val ≤ x.val) (w : Word)
      (index : w = s.ms.i ∨ (s.cfg.ldstIInc = .xPlus1 ∧ w.toNat ≤ 0xFFF)) :
      Effect (.ldVxMem x) s (s.completedWith { s.ms with v := v, i := w })

/-- Everything an instruction that completes can do. -/
theorem exec_next {i : Instr} {s t : State} (h : exec i s = .next t) : Effect i s t := by
  cases i with
  | sys nnn =>
    simp only [exec, execSys] at h
    split at h
    · obtain ⟨hl, rfl⟩ := setPc_next h; exact .pcOnly _ hl
    · cases h
  | cls => obtain ⟨hl, rfl⟩ := advance_next h; exact .clears hl
  | ret =>
    simp only [exec, execRet] at h
    obtain ⟨⟨w, u⟩, hp, h⟩ := attempt_next h
    obtain ⟨h0, rfl, rfl⟩ := State.pop_ok hp
    obtain ⟨hl, rfl⟩ := setPc_next h
    simp only [BitVec.ofNat_toNat, BitVec.setWidth_eq]
    exact .returns h0 hl
  | call nnn =>
    simp only [exec, execCall] at h
    obtain ⟨p, hp, h⟩ := attempt_next h
    obtain ⟨_, hc, h⟩ := attempt_next h
    obtain ⟨hn, rfl⟩ := setPc_next h
    obtain ⟨hsp, rfl⟩ := State.push_ok hp
    by_cases hl : PcLegal (s.ms.pc.toNat + 2)
    · exact .calls hsp hl hn
    · rw [checkPc_error hl] at hc; cases hc
  | seImm x kk => obtain ⟨hl, rfl⟩ := setPc_next h; exact .pcOnly _ hl
  | sneImm x kk => obtain ⟨hl, rfl⟩ := setPc_next h; exact .pcOnly _ hl
  | seReg x y => obtain ⟨hl, rfl⟩ := setPc_next h; exact .pcOnly _ hl
  | sneReg x y => obtain ⟨hl, rfl⟩ := setPc_next h; exact .pcOnly _ hl
  | jpV0 nnn => obtain ⟨hl, rfl⟩ := setPc_next h; exact .pcOnly _ hl
  | skp x => obtain ⟨hl, rfl⟩ := setPc_next h; exact .pcOnly _ hl
  | sknp x => obtain ⟨hl, rfl⟩ := setPc_next h; exact .pcOnly _ hl
  | jp nnn => obtain ⟨hl, rfl⟩ := setPc_next h; exact .pcOnly _ hl
  | ldImm x kk =>
    obtain ⟨hl, rfl⟩ := advance_next h
    refine .registers (s := s) _ hl fun j hj => ?_
    obtain rfl := eq_of_set_ne hj
    exact .inl ⟨0, kk, by simp⟩
  | addImm x kk =>
    obtain ⟨hl, rfl⟩ := advance_next h
    refine .registers (s := s) _ hl fun j hj => ?_
    obtain rfl := eq_of_set_ne hj
    exact .inl ⟨0, kk, by simp⟩
  | ldReg x y =>
    obtain ⟨hl, rfl⟩ := advance_next h
    refine .registers (s := s) _ hl fun j hj => ?_
    obtain rfl := eq_of_set_ne hj
    exact .inl ⟨y, 0, by simp⟩
  | ldVxDt x =>
    obtain ⟨hl, rfl⟩ := advance_next h
    refine .registers (s := s) _ hl fun j hj => ?_
    obtain rfl := eq_of_set_ne hj
    exact .inl ⟨0, 0, by simp⟩
  | orReg x y =>
    simp only [exec, execOr] at h
    rw [setLogicResult_eq] at h
    obtain ⟨hl, rfl⟩ := advance_next h
    refine .registers (s := s) _ hl fun j hj => ?_
    obtain rfl | ⟨rfl, hc⟩ := eq_of_setLogicResult_ne hj
    · exact .inl ⟨y, 0, by simp⟩
    · exact .inr (.inr ⟨rfl, hc, x, y, by simp⟩)
  | andReg x y =>
    simp only [exec, execAnd] at h
    rw [setLogicResult_eq] at h
    obtain ⟨hl, rfl⟩ := advance_next h
    refine .registers (s := s) _ hl fun j hj => ?_
    obtain rfl | ⟨rfl, hc⟩ := eq_of_setLogicResult_ne hj
    · exact .inl ⟨y, 0, by simp⟩
    · exact .inr (.inr ⟨rfl, hc, x, y, by simp⟩)
  | xorReg x y =>
    simp only [exec, execXor] at h
    rw [setLogicResult_eq] at h
    obtain ⟨hl, rfl⟩ := advance_next h
    refine .registers (s := s) _ hl fun j hj => ?_
    obtain rfl | ⟨rfl, hc⟩ := eq_of_setLogicResult_ne hj
    · exact .inl ⟨y, 0, by simp⟩
    · exact .inr (.inr ⟨rfl, hc, x, y, by simp⟩)
  | addReg x y =>
    obtain ⟨hl, rfl⟩ := advance_next h
    refine .registers (s := s) _ hl fun j hj => ?_
    obtain rfl | rfl := eq_of_setResultAndFlag_ne hj
    · exact .inl ⟨y, 0, by simp⟩
    · exact .inr (.inl ⟨rfl, x, y, by simp⟩)
  | sub x y =>
    obtain ⟨hl, rfl⟩ := advance_next h
    refine .registers (s := s) _ hl fun j hj => ?_
    obtain rfl | rfl := eq_of_setResultAndFlag_ne hj
    · exact .inl ⟨y, 0, by simp⟩
    · exact .inr (.inl ⟨rfl, x, y, by simp⟩)
  | subn x y =>
    obtain ⟨hl, rfl⟩ := advance_next h
    refine .registers (s := s) _ hl fun j hj => ?_
    obtain rfl | rfl := eq_of_setResultAndFlag_ne hj
    · exact .inl ⟨y, 0, by simp⟩
    · exact .inr (.inl ⟨rfl, x, y, by simp⟩)
  | shr x y =>
    obtain ⟨hl, rfl⟩ := advance_next h
    refine .registers (s := s) _ hl fun j hj => ?_
    obtain rfl | rfl := eq_of_setResultAndFlag_ne hj
    · exact .inl ⟨y, 0, by simp⟩
    · exact .inr (.inl ⟨rfl, x, y, by simp⟩)
  | shl x y =>
    obtain ⟨hl, rfl⟩ := advance_next h
    refine .registers (s := s) _ hl fun j hj => ?_
    obtain rfl | rfl := eq_of_setResultAndFlag_ne hj
    · exact .inl ⟨y, 0, by simp⟩
    · exact .inr (.inl ⟨rfl, x, y, by simp⟩)
  | ldVxK x =>
    simp only [exec, execLdVxK] at h
    split at h
    · cases h; exact .waits
    · obtain ⟨hl, rfl⟩ := advance_next h
      refine .registers (s := s) _ hl fun j hj => ?_
      obtain rfl := eq_of_set_ne hj
      exact .inl ⟨0, 0, by simp⟩
  | rnd x kk => obtain ⟨hl, rfl⟩ := advance_next h; exact .draws (s := s) hl _
  | drw x y n =>
    simp only [exec, execDrw] at h
    obtain ⟨rows, _, h⟩ := attempt_next h
    obtain ⟨hl, rfl⟩ := advance_next h
    exact .sprite (s := s) hl _ _
  | ldDtVx x => obtain ⟨hl, rfl⟩ := advance_next h; exact .delay (s := s) hl _
  | ldStVx x => obtain ⟨hl, rfl⟩ := advance_next h; exact .sound (s := s) hl _
  | ldI nnn =>
    obtain ⟨hl, rfl⟩ := advance_next h
    exact .index (s := s) hl _ (.inl ⟨_, rfl⟩) fun _ => by have := nnn.isLt; simp; omega
  | addI x =>
    simp only [exec, execAddI] at h
    split at h
    · cases h
    · obtain ⟨hl, rfl⟩ := advance_next h
      exact .index (s := s) hl _ (.inr ⟨x, by simp⟩) fun _ => by simp; omega
  | ldF x =>
    obtain ⟨hl, rfl⟩ := advance_next h
    exact .index (s := s) hl _ (.inr ⟨x, by simp⟩) fun hc => by have := fontAddress_le hc (s.getV x); simp; omega
  | ldB x =>
    simp only [exec, execLdB] at h
    obtain ⟨m, hw, h⟩ := attempt_next h
    obtain ⟨hl, rfl⟩ := advance_next h
    exact .digits (s := s) hl m (writeBytes_wf hw)
  | ldMemVx x =>
    simp only [exec, execLdMemVx] at h
    obtain ⟨m, hw, h⟩ := attempt_next h
    obtain ⟨u, hu, h⟩ := attempt_next h
    obtain ⟨hl, rfl⟩ := advance_next h
    obtain ⟨_, rfl⟩ | ⟨hc, hi, rfl⟩ := indexAfterBlock_ok hu
    · exact .stores (s := s) hl m (writeBytes_wf hw) _ (.inl rfl)
    · exact .stores (s := s) hl m (writeBytes_wf hw) _ (.inr ⟨hc, by simp at hi ⊢; omega⟩)
  | ldVxMem x =>
    simp only [exec, execLdVxMem] at h
    obtain ⟨bs, hr, h⟩ := attempt_next h
    obtain ⟨u, hu, h⟩ := attempt_next h
    obtain ⟨hl, rfl⟩ := advance_next h
    have hv : ∀ j : Reg, (loadBlock 0 bs s.ms.v)[j] ≠ s.ms.v[j] → j.val ≤ x.val := by
      intro j hj
      obtain ⟨_, hr⟩ | ⟨_, _, hr⟩ := readBytes_cases hr
      · cases hr
        by_contra hc
        refine hj ?_
        show (loadBlock _ _ _)[j.val] = _
        rw [getElem_loadBlock j.isLt, if_neg (by simp; omega)]; rfl
      · cases hr
    obtain ⟨_, rfl⟩ | ⟨hc, hi, rfl⟩ := indexAfterBlock_ok hu
    · exact .loads (s := s) hl _ hv _ (.inl rfl)
    · exact .loads (s := s) hl _ hv _ (.inr ⟨hc, by simp at hi ⊢; omega⟩)

end Sys2Proof.Machine
end

