-- ==== Sys2Proof/Laws/Host.lean ====
section
/-! SUPPORT. The host's frame contract (00_scope.md R8; 47_host_operations.md R238, R239). -/

namespace Sys2Proof.Machine

/-- Every frame has a step, since BASELINE_IPF and speed_k are at least 1 (R10, R237). -/
theorem one_le_stepsPerFrame (host : HostParams) {speedK : Nat} (h : 1 ≤ speedK) :
    1 ≤ stepsPerFrame host speedK :=
  Nat.mul_le_mul host.baselineIpf.property h

/-- Under the default TIMER_SCALING the timers tick speed_k times per frame (R239). -/
@[simp] theorem ticksPerFrame_default (ipf : { n : Nat // 1 ≤ n }) (speedK : Nat) :
    ticksPerFrame (HostParams.default ipf) speedK = speedK := rfl

/-- Under `wall_clock` the timers tick once per frame, whatever speed_k is (R239). -/
theorem ticksPerFrame_wallClock {host : HostParams} (h : host.timerScaling = .wallClock) (speedK : Nat) :
    ticksPerFrame host speedK = 1 := by
  rw [ticksPerFrame, h]

end Sys2Proof.Machine
end

