-- ==== Sys2Proof/Laws/PerInstr.lean ====
section
/-! SUPPORT. The family `EncodedFields`, said per instruction: the fields of an instruction's word are its
operands and the fixed bits of its pattern (30_encoding.md R72, R73, R76). -/

namespace Sys2Proof.Laws.EncodedFields

/-- The fields of the word of each instruction, read by R72 from the pattern R76 gives it. -/
def Statement : Instr → Prop
  | .sys nnn =>
    opField (encode (.sys nnn)) = 0x0 ∧ nnnField (encode (.sys nnn)) = nnn
  | .cls =>
    opField (encode .cls) = 0x0 ∧ nnnField (encode .cls) = 0x0E0
  | .ret =>
    opField (encode .ret) = 0x0 ∧ nnnField (encode .ret) = 0x0EE
  | .jp nnn =>
    opField (encode (.jp nnn)) = 0x1 ∧ nnnField (encode (.jp nnn)) = nnn
  | .call nnn =>
    opField (encode (.call nnn)) = 0x2 ∧ nnnField (encode (.call nnn)) = nnn
  | .seImm x kk =>
    opField (encode (.seImm x kk)) = 0x3 ∧ xField (encode (.seImm x kk)) = x ∧
    kkField (encode (.seImm x kk)) = kk
  | .sneImm x kk =>
    opField (encode (.sneImm x kk)) = 0x4 ∧ xField (encode (.sneImm x kk)) = x ∧
    kkField (encode (.sneImm x kk)) = kk
  | .seReg x y =>
    opField (encode (.seReg x y)) = 0x5 ∧ xField (encode (.seReg x y)) = x ∧
    yField (encode (.seReg x y)) = y ∧ nField (encode (.seReg x y)) = 0x0
  | .ldImm x kk =>
    opField (encode (.ldImm x kk)) = 0x6 ∧ xField (encode (.ldImm x kk)) = x ∧
    kkField (encode (.ldImm x kk)) = kk
  | .addImm x kk =>
    opField (encode (.addImm x kk)) = 0x7 ∧ xField (encode (.addImm x kk)) = x ∧
    kkField (encode (.addImm x kk)) = kk
  | .ldReg x y =>
    opField (encode (.ldReg x y)) = 0x8 ∧ xField (encode (.ldReg x y)) = x ∧
    yField (encode (.ldReg x y)) = y ∧ nField (encode (.ldReg x y)) = 0x0
  | .orReg x y =>
    opField (encode (.orReg x y)) = 0x8 ∧ xField (encode (.orReg x y)) = x ∧
    yField (encode (.orReg x y)) = y ∧ nField (encode (.orReg x y)) = 0x1
  | .andReg x y =>
    opField (encode (.andReg x y)) = 0x8 ∧ xField (encode (.andReg x y)) = x ∧
    yField (encode (.andReg x y)) = y ∧ nField (encode (.andReg x y)) = 0x2
  | .xorReg x y =>
    opField (encode (.xorReg x y)) = 0x8 ∧ xField (encode (.xorReg x y)) = x ∧
    yField (encode (.xorReg x y)) = y ∧ nField (encode (.xorReg x y)) = 0x3
  | .addReg x y =>
    opField (encode (.addReg x y)) = 0x8 ∧ xField (encode (.addReg x y)) = x ∧
    yField (encode (.addReg x y)) = y ∧ nField (encode (.addReg x y)) = 0x4
  | .sub x y =>
    opField (encode (.sub x y)) = 0x8 ∧ xField (encode (.sub x y)) = x ∧
    yField (encode (.sub x y)) = y ∧ nField (encode (.sub x y)) = 0x5
  | .shr x y =>
    opField (encode (.shr x y)) = 0x8 ∧ xField (encode (.shr x y)) = x ∧
    yField (encode (.shr x y)) = y ∧ nField (encode (.shr x y)) = 0x6
  | .subn x y =>
    opField (encode (.subn x y)) = 0x8 ∧ xField (encode (.subn x y)) = x ∧
    yField (encode (.subn x y)) = y ∧ nField (encode (.subn x y)) = 0x7
  | .shl x y =>
    opField (encode (.shl x y)) = 0x8 ∧ xField (encode (.shl x y)) = x ∧
    yField (encode (.shl x y)) = y ∧ nField (encode (.shl x y)) = 0xE
  | .sneReg x y =>
    opField (encode (.sneReg x y)) = 0x9 ∧ xField (encode (.sneReg x y)) = x ∧
    yField (encode (.sneReg x y)) = y ∧ nField (encode (.sneReg x y)) = 0x0
  | .ldI nnn =>
    opField (encode (.ldI nnn)) = 0xA ∧ nnnField (encode (.ldI nnn)) = nnn
  | .jpV0 nnn =>
    opField (encode (.jpV0 nnn)) = 0xB ∧ nnnField (encode (.jpV0 nnn)) = nnn
  | .rnd x kk =>
    opField (encode (.rnd x kk)) = 0xC ∧ xField (encode (.rnd x kk)) = x ∧
    kkField (encode (.rnd x kk)) = kk
  | .drw x y n =>
    opField (encode (.drw x y n)) = 0xD ∧ xField (encode (.drw x y n)) = x ∧
    yField (encode (.drw x y n)) = y ∧ nField (encode (.drw x y n)) = n
  | .skp x =>
    opField (encode (.skp x)) = 0xE ∧ xField (encode (.skp x)) = x ∧
    kkField (encode (.skp x)) = 0x9E
  | .sknp x =>
    opField (encode (.sknp x)) = 0xE ∧ xField (encode (.sknp x)) = x ∧
    kkField (encode (.sknp x)) = 0xA1
  | .ldVxDt x =>
    opField (encode (.ldVxDt x)) = 0xF ∧ xField (encode (.ldVxDt x)) = x ∧
    kkField (encode (.ldVxDt x)) = 0x07
  | .ldVxK x =>
    opField (encode (.ldVxK x)) = 0xF ∧ xField (encode (.ldVxK x)) = x ∧
    kkField (encode (.ldVxK x)) = 0x0A
  | .ldDtVx x =>
    opField (encode (.ldDtVx x)) = 0xF ∧ xField (encode (.ldDtVx x)) = x ∧
    kkField (encode (.ldDtVx x)) = 0x15
  | .ldStVx x =>
    opField (encode (.ldStVx x)) = 0xF ∧ xField (encode (.ldStVx x)) = x ∧
    kkField (encode (.ldStVx x)) = 0x18
  | .addI x =>
    opField (encode (.addI x)) = 0xF ∧ xField (encode (.addI x)) = x ∧
    kkField (encode (.addI x)) = 0x1E
  | .ldF x =>
    opField (encode (.ldF x)) = 0xF ∧ xField (encode (.ldF x)) = x ∧
    kkField (encode (.ldF x)) = 0x29
  | .ldB x =>
    opField (encode (.ldB x)) = 0xF ∧ xField (encode (.ldB x)) = x ∧
    kkField (encode (.ldB x)) = 0x33
  | .ldMemVx x =>
    opField (encode (.ldMemVx x)) = 0xF ∧ xField (encode (.ldMemVx x)) = x ∧
    kkField (encode (.ldMemVx x)) = 0x55
  | .ldVxMem x =>
    opField (encode (.ldVxMem x)) = 0xF ∧ xField (encode (.ldVxMem x)) = x ∧
    kkField (encode (.ldVxMem x)) = 0x65

theorem sys (nnn : Addr) : Statement (.sys nnn) := ⟨opField_encodeNNN .., nnnField_encodeNNN ..⟩
theorem cls : Statement .cls := ⟨rfl, rfl⟩
theorem ret : Statement .ret := ⟨rfl, rfl⟩
theorem jp (nnn : Addr) : Statement (.jp nnn) := ⟨opField_encodeNNN .., nnnField_encodeNNN ..⟩
theorem call (nnn : Addr) : Statement (.call nnn) := ⟨opField_encodeNNN .., nnnField_encodeNNN ..⟩
theorem seImm (x : Reg) (kk : Byte) : Statement (.seImm x kk) := ⟨opField_encodeXKK .., xField_encodeXKK .., kkField_encodeXKK ..⟩
theorem sneImm (x : Reg) (kk : Byte) : Statement (.sneImm x kk) := ⟨opField_encodeXKK .., xField_encodeXKK .., kkField_encodeXKK ..⟩
theorem seReg (x : Reg) (y : Reg) : Statement (.seReg x y) :=
  ⟨opField_encodeXYN .., xField_encodeXYN .., yField_encodeXYN .., nField_encodeXYN ..⟩
theorem ldImm (x : Reg) (kk : Byte) : Statement (.ldImm x kk) := ⟨opField_encodeXKK .., xField_encodeXKK .., kkField_encodeXKK ..⟩
theorem addImm (x : Reg) (kk : Byte) : Statement (.addImm x kk) := ⟨opField_encodeXKK .., xField_encodeXKK .., kkField_encodeXKK ..⟩
theorem ldReg (x : Reg) (y : Reg) : Statement (.ldReg x y) :=
  ⟨opField_encodeXYN .., xField_encodeXYN .., yField_encodeXYN .., nField_encodeXYN ..⟩
theorem orReg (x : Reg) (y : Reg) : Statement (.orReg x y) :=
  ⟨opField_encodeXYN .., xField_encodeXYN .., yField_encodeXYN .., nField_encodeXYN ..⟩
theorem andReg (x : Reg) (y : Reg) : Statement (.andReg x y) :=
  ⟨opField_encodeXYN .., xField_encodeXYN .., yField_encodeXYN .., nField_encodeXYN ..⟩
theorem xorReg (x : Reg) (y : Reg) : Statement (.xorReg x y) :=
  ⟨opField_encodeXYN .., xField_encodeXYN .., yField_encodeXYN .., nField_encodeXYN ..⟩
theorem addReg (x : Reg) (y : Reg) : Statement (.addReg x y) :=
  ⟨opField_encodeXYN .., xField_encodeXYN .., yField_encodeXYN .., nField_encodeXYN ..⟩
theorem sub (x : Reg) (y : Reg) : Statement (.sub x y) :=
  ⟨opField_encodeXYN .., xField_encodeXYN .., yField_encodeXYN .., nField_encodeXYN ..⟩
theorem shr (x : Reg) (y : Reg) : Statement (.shr x y) :=
  ⟨opField_encodeXYN .., xField_encodeXYN .., yField_encodeXYN .., nField_encodeXYN ..⟩
theorem subn (x : Reg) (y : Reg) : Statement (.subn x y) :=
  ⟨opField_encodeXYN .., xField_encodeXYN .., yField_encodeXYN .., nField_encodeXYN ..⟩
theorem shl (x : Reg) (y : Reg) : Statement (.shl x y) :=
  ⟨opField_encodeXYN .., xField_encodeXYN .., yField_encodeXYN .., nField_encodeXYN ..⟩
theorem sneReg (x : Reg) (y : Reg) : Statement (.sneReg x y) :=
  ⟨opField_encodeXYN .., xField_encodeXYN .., yField_encodeXYN .., nField_encodeXYN ..⟩
theorem ldI (nnn : Addr) : Statement (.ldI nnn) := ⟨opField_encodeNNN .., nnnField_encodeNNN ..⟩
theorem jpV0 (nnn : Addr) : Statement (.jpV0 nnn) := ⟨opField_encodeNNN .., nnnField_encodeNNN ..⟩
theorem rnd (x : Reg) (kk : Byte) : Statement (.rnd x kk) := ⟨opField_encodeXKK .., xField_encodeXKK .., kkField_encodeXKK ..⟩
theorem drw (x : Reg) (y : Reg) (n : Fin 16) : Statement (.drw x y n) :=
  ⟨opField_encodeXYN .., xField_encodeXYN .., yField_encodeXYN .., nField_encodeXYN ..⟩
theorem skp (x : Reg) : Statement (.skp x) := ⟨opField_encodeXKK .., xField_encodeXKK .., kkField_encodeXKK ..⟩
theorem sknp (x : Reg) : Statement (.sknp x) := ⟨opField_encodeXKK .., xField_encodeXKK .., kkField_encodeXKK ..⟩
theorem ldVxDt (x : Reg) : Statement (.ldVxDt x) := ⟨opField_encodeXKK .., xField_encodeXKK .., kkField_encodeXKK ..⟩
theorem ldVxK (x : Reg) : Statement (.ldVxK x) := ⟨opField_encodeXKK .., xField_encodeXKK .., kkField_encodeXKK ..⟩
theorem ldDtVx (x : Reg) : Statement (.ldDtVx x) := ⟨opField_encodeXKK .., xField_encodeXKK .., kkField_encodeXKK ..⟩
theorem ldStVx (x : Reg) : Statement (.ldStVx x) := ⟨opField_encodeXKK .., xField_encodeXKK .., kkField_encodeXKK ..⟩
theorem addI (x : Reg) : Statement (.addI x) := ⟨opField_encodeXKK .., xField_encodeXKK .., kkField_encodeXKK ..⟩
theorem ldF (x : Reg) : Statement (.ldF x) := ⟨opField_encodeXKK .., xField_encodeXKK .., kkField_encodeXKK ..⟩
theorem ldB (x : Reg) : Statement (.ldB x) := ⟨opField_encodeXKK .., xField_encodeXKK .., kkField_encodeXKK ..⟩
theorem ldMemVx (x : Reg) : Statement (.ldMemVx x) := ⟨opField_encodeXKK .., xField_encodeXKK .., kkField_encodeXKK ..⟩
theorem ldVxMem (x : Reg) : Statement (.ldVxMem x) := ⟨opField_encodeXKK .., xField_encodeXKK .., kkField_encodeXKK ..⟩

end Sys2Proof.Laws.EncodedFields
end

