-- ==== Sys2Proof/Laws/Run.lean ====
section
/-! SUPPORT. Runs of the host's operations and their end (70_reset_and_hazards.md R291). -/

namespace Sys2Proof.Machine

theorem Block.run_append (ops ops' : List Op) (b : Block) :
    Block.run (ops ++ ops') b = Block.run ops' (Block.run ops b) := by
  induction ops generalizing b with
  | nil => rfl
  | cons op ops ih => exact ih _

@[simp] theorem Block.runToEnd_nil (b : Block) : Block.runToEnd [] b = (b, none) := rfl

/-- Only a step of a loaded block ends a run. -/
theorem Block.endOf_some {b : Block} {op : Op} {e : RunEnd} (h : b.endOf op = some e) :
    op = .step ∧ ∃ s, b = .loaded s ∧ endOfStep s = some e := by
  cases b with
  | created cfg => cases h
  | loaded s =>
    simp only [Block.endOf] at h
    split at h
    · exact ⟨‹_›, s, rfl, h⟩
    · cases h

/-- Everything that ends a run: an error, which leaves the pre-step state, or an executed jump to itself. -/
theorem endOfStep_some {s : State} {e : RunEnd} (h : endOfStep s = some e) :
    (∃ f, e = .error f ∧ step s = .fault f ∧ (Block.loaded s).perform .step = (.loaded s, .err f)) ∨
    (∃ t, e = .jumpToSelf ∧ step s = .next t ∧ atJumpToSelf s = true) := by
  unfold endOfStep at h
  split at h
  · cases h
    refine .inl ⟨_, rfl, ‹_›, ?_⟩
    simp only [Block.perform, State.perform, ‹step s = _›, Block.settle]
  · split at h
    · cases h; exact .inr ⟨_, rfl, ‹_›, ‹_›⟩
    · cases h
  · cases h

/-- A run that has not ended is the plain run of its operations. -/
theorem Block.runToEnd_none {ops : List Op} {b : Block} (h : (Block.runToEnd ops b).2 = none) :
    Block.runToEnd ops b = (Block.run ops b, none) := by
  induction ops generalizing b with
  | nil => rfl
  | cons op ops ih =>
    simp only [Block.runToEnd] at h ⊢
    cases he : b.endOf op with
    | some e => rw [he] at h; cases h
    | none => rw [he] at h; simp only at h ⊢; exact ih h

/-- Without a step no run ends. -/
theorem not_runEnded_of_no_step {ops : List Op} {b : Block} (h : ∀ op ∈ ops, op ≠ .step) : ¬runEnded ops b := by
  induction ops generalizing b with
  | nil => simp [runEnded]
  | cons op ops ih =>
    have he : b.endOf op = none := by
      cases he : b.endOf op with
      | none => rfl
      | some e => exact absurd (Block.endOf_some he).1 (h op (by simp))
    simp only [runEnded, Block.runToEnd, he]
    exact ih fun op' hop => h op' (by simp [hop])

end Sys2Proof.Machine
end

