-- ==== Sys2Proof/Tests/Slice0.lean ====
section
/-! SUPPORT. Tests. Expected results come from the encodings of 30_encoding.md R76 and from the vectors of
95_test_vectors.md, whose identifiers (V-...) the comments give; the last part shows, for each obligation with
hypotheses, states and operands that meet them, each clause at the edge of its range. -/

namespace Sys2Proof.Tests.Slice0

open Sys2Proof.Machine

/-! ### Well-formed instructions (R100) -/

/-- The one check refuses the words of CLS and RET as operands of SYS. -/
theorem test_sys_with_operand_0E0_or_0EE_is_ill_formed :
    (Instr.sys 0x0E0).wellFormed = false ∧ (Instr.sys 0x0EE).wellFormed = false := by decide

theorem test_sys_with_any_other_operand_is_well_formed :
    (Instr.sys 0x0DF).wellFormed = true ∧ (Instr.sys 0x0EF).wellFormed = true ∧
      (Instr.sys 0x000).wellFormed = true ∧ (Instr.sys 0xFFF).wellFormed = true := by decide

/-! ### Decoding: every constructor's word, written out from its pattern (R76) -/

theorem test_decode_control_flow :
    decode .nop 0b0000000100100011 = .ok (.sys 0x123) ∧ decode .nop 0b0000000011101110 = .ok .ret ∧
      decode .nop 0b0001001000101000 = .ok (.jp 0x228) ∧ decode .nop 0b0010001100000000 = .ok (.call 0x300) ∧
      decode .nop 0b0011001101000010 = .ok (.seImm 3 0x42) ∧
      decode .nop 0b0100111100000001 = .ok (.sneImm 15 0x01) ∧
      decode .nop 0b0101000110100000 = .ok (.seReg 1 10) ∧ decode .nop 0b1001000100100000 = .ok (.sneReg 1 2) ∧
      decode .nop 0b1011001100010010 = .ok (.jpV0 0x312) := by decide

theorem test_decode_loads_and_logic :
    decode .nop 0b0110101000101011 = .ok (.ldImm 10 0x2B) ∧ decode .nop 0b0111111111111110 = .ok (.addImm 15 0xFE) ∧
      decode .nop 0b1000000101010000 = .ok (.ldReg 1 5) ∧ decode .nop 0b1000000101010001 = .ok (.orReg 1 5) ∧
      decode .nop 0b1000000101010010 = .ok (.andReg 1 5) ∧ decode .nop 0b1000000101010011 = .ok (.xorReg 1 5) ∧
      decode .nop 0b1100001100001111 = .ok (.rnd 3 0x0F) := by decide

theorem test_decode_arithmetic :
    decode .nop 0b1000000101010100 = .ok (.addReg 1 5) ∧ decode .nop 0b1000000101010101 = .ok (.sub 1 5) ∧
      decode .nop 0b1000000101010110 = .ok (.shr 1 5) ∧ decode .nop 0b1000000101010111 = .ok (.subn 1 5) ∧
      decode .nop 0b1000000101011110 = .ok (.shl 1 5) := by decide

theorem test_decode_index_and_memory :
    decode .nop 0b1010111111111111 = .ok (.ldI 0xFFF) ∧ decode .nop 0b1111000100011110 = .ok (.addI 1) ∧
      decode .nop 0b1111000100101001 = .ok (.ldF 1) ∧ decode .nop 0b1111011100110011 = .ok (.ldB 7) ∧
      decode .nop 0b1111001001010101 = .ok (.ldMemVx 2) ∧ decode .nop 0b1111111101100101 = .ok (.ldVxMem 15) := by
  decide

theorem test_decode_timers_keys_and_display :
    decode .nop 0b1110000110011110 = .ok (.skp 1) ∧ decode .nop 0b1110000110100001 = .ok (.sknp 1) ∧
      decode .nop 0b1111111100000111 = .ok (.ldVxDt 15) ∧ decode .nop 0b1111001100001010 = .ok (.ldVxK 3) ∧
      decode .nop 0b1111000000010101 = .ok (.ldDtVx 0) ∧ decode .nop 0b1111000100011000 = .ok (.ldStVx 1) ∧
      decode .nop 0b0000000011100000 = .ok .cls ∧ decode .nop 0b1101000100100101 = .ok (.drw 1 2 5) := by decide

/-- V-D1 to V-D8 and V-D10. -/
theorem test_decode_rejects_unknown_words :
    decode .nop 0x5121 = .error (.unknown 0x5121) ∧ decode .nop 0x912F = .error (.unknown 0x912F) ∧
      decode .nop 0x8128 = .error (.unknown 0x8128) ∧ decode .nop 0x812F = .error (.unknown 0x812F) ∧
      decode .nop 0xE1FF = .error (.unknown 0xE1FF) ∧ decode .nop 0xF000 = .error (.unknown 0xF000) ∧
      decode .unknown 0x0123 = .error (.unknown 0x0123) ∧ decode .unknown 0x00E0 = .ok .cls := by decide

theorem test_decodeTableWord_reads_the_table_bits :
    decodeTableWord 16 0xD125 = some (.drw 1 2 5) ∧ decodeTableWord 16 0x00E0 = some .cls ∧
      decodeTableWord 16 0x5121 = none := by decide

/-- A byte list keeps what follows the word, and fewer than two bytes are no word (R70). -/
theorem test_decodeBytes_takes_two_bytes :
    decodeBytes .nop [0xA3, 0x00, 0x60] = .ok (.ldI 0x300, [0x60]) ∧ decodeBytes .nop [0xA3] = .error .truncated := by
  decide

/-! ### One step -/

/-- The pre-state of 95_test_vectors.md without the font: most vectors read no glyph. -/
def bare : State := State.reset.setMem []

/-- `bare` at another pc. -/
def atPc (pc : Word) : State := bare.withPc pc

/-- One step at `pc` on the word `w`. -/
def stepAt (pc : Word) (w : Nat) (s : State) : Answer := step ((s.withPc pc).withFetchWord 16 w)

/-- What `f` reads from the state a completed step leaves. -/
def seen {α : Type} (f : State → α) (o : Answer) : Option α :=
  match o with
  | .next t => some (f t)
  | .fault _ => none
  | .refused _ => none

/-- The error a step ends in, if any. -/
def errorOf (o : Answer) : Option Fault :=
  match o with
  | .next _ => none
  | .fault e => some e
  | .refused _ => none

/-- The state under another configuration. -/
def under (f : Config → Config) (s : State) : State := { s with cfg := f s.cfg }

/-- Bytes placed in memory. -/
def poke (a : Nat) (bs : List Byte) (s : State) : State := s.setMem (Memory.putBytes a bs s.ms.mem)

/-- The state with I at `w`. -/
def pointing (w : Word) : State := bare.setI w

/-- `n` occupied stack slots from the bottom. -/
def stacked (ws : List Word) (n : Fin 17) (s : State) : State :=
  s.setStack (Vector.ofFn fun k => ws.getD k.val 0x0000) n

/-- V-D9. -/
theorem test_sys_advances :
    seen (fun t => t.ms.pc) (stepAt 0x200 0x0000 bare) = some 0x202 := by decide

/-- V-C25. -/
theorem test_sys_past_the_end_raises :
    errorOf (stepAt 0xFFE 0x0000 bare) = some (.invalidMemoryAccess 0x1000) := by decide

/-- V-C12. -/
theorem test_ret_keeps_the_stale_slot :
    seen (fun t => (t.ms.pc, t.ms.sp, t.ms.stack[1])) (stepAt 0x200 0x00EE (stacked [0x400, 0x206] 2 bare)) =
      some (0x206, 1, 0x206) := by decide

/-- V-C11. -/
theorem test_ret_on_an_empty_stack_raises :
    errorOf (stepAt 0x200 0x00EE bare) = some .stackUnderflow := by decide

/-- V-S7. -/
theorem test_jp_jumps :
    seen (fun t => t.ms.pc) (stepAt 0xFFE 0x1228 bare) = some 0x228 := by decide

/-- V-C1. -/
theorem test_jp_below_0x200_raises :
    errorOf (stepAt 0x200 0x11FF bare) = some (.invalidMemoryAccess 0x1FF) := by decide

/-- V-C5. -/
theorem test_call_pushes :
    seen (fun t => (t.ms.pc, t.ms.sp, t.ms.stack[0])) (stepAt 0x200 0x2300 bare) = some (0x300, 1, 0x202) := by decide

/-- V-C9. -/
theorem test_call_checks_the_return_address_first :
    errorOf (stepAt 0xFFE 0x2100 bare) = some (.invalidMemoryAccess 0x1000) := by decide

/-- V-C19. -/
theorem test_se_imm_skips :
    seen (fun t => t.ms.pc) (stepAt 0x200 0x3342 (bare.setV 3 0x42)) = some 0x204 := by decide

/-- V-C21. -/
theorem test_sne_imm_skips :
    seen (fun t => t.ms.pc) (stepAt 0x200 0x4343 (bare.setV 3 0x42)) = some 0x204 := by decide

/-- V-C22. -/
theorem test_se_reg_of_itself_skips :
    seen (fun t => t.ms.pc) (stepAt 0x200 0x5550 bare) = some 0x204 := by decide

/-- V-C24. -/
theorem test_sne_reg_skips :
    seen (fun t => t.ms.pc) (stepAt 0x200 0x9120 ((bare.setV 1 7).setV 2 8)) = some 0x204 := by decide

/-- V-C15. -/
theorem test_jpV0_adds_vx :
    seen (fun t => t.ms.pc) (stepAt 0x200 0xB312
      (under (fun c => { c with jumpOffsetReg := .vx }) ((bare.setV 0 0x01).setV 3 0x10))) = some 0x322 := by decide

/-- V-C13. -/
theorem test_jpV0_does_not_wrap :
    errorOf (stepAt 0x200 0xBF00 (bare.setV 0 0xFF)) = some (.invalidMemoryAccess 0xFFF) := by decide

/-- V-A1. -/
theorem test_ld_imm :
    seen (fun t => t.getV 10) (stepAt 0x200 0x6A2B bare) = some 0x2B := by decide

/-- V-A2. -/
theorem test_add_imm_writes_no_carry :
    seen (fun t => t.getV VF) (stepAt 0x200 0x7FFF (bare.setV VF 0x01)) = some 0x00 := by decide

/-- V-A5. -/
theorem test_ld_reg :
    seen (fun t => (t.getV 1, t.getV 5)) (stepAt 0x200 0x8150 (bare.setV 5 0x33)) = some (0x33, 0x33) := by decide

/-- V-A6. -/
theorem test_or_leaves_VF :
    seen (fun t => (t.getV 1, t.getV VF)) (stepAt 0x200 0x8121 (((bare.setV 1 0x01).setV 2 0x02).setV VF 0x05)) =
      some (0x03, 0x05) := by decide

/-- V-A7. -/
theorem test_or_resets_VF :
    seen (fun t => (t.getV 1, t.getV VF)) (stepAt 0x200 0x8121 (under (fun c => { c with logicVfReset := true })
      (((bare.setV 1 0x01).setV 2 0x02).setV VF 0x05))) = some (0x03, 0x00) := by decide

/-- V-A8. -/
theorem test_and :
    seen (fun t => t.getV 1) (stepAt 0x200 0x8122 ((bare.setV 1 0x3C).setV 2 0x0F)) = some 0x0C := by decide

/-- V-A9. -/
theorem test_xor_of_itself :
    seen (fun t => t.getV 1) (stepAt 0x200 0x8113 (bare.setV 1 0x5A)) = some 0x00 := by decide

/-- V-S1. -/
theorem test_add_with_carry :
    seen (fun t => (t.getV 0, t.getV VF)) (stepAt 0x200 0x8014 ((bare.setV 0 0xFF).setV 1 0x01)) = some (0x00, 0x01) := by decide

/-- V-A10. -/
theorem test_add_into_VF_keeps_the_flag :
    seen (fun t => t.getV VF) (stepAt 0x200 0x8FF4 (bare.setV VF 0x80)) = some 0x01 := by decide

/-- V-A14. -/
theorem test_sub_of_equal_operands :
    seen (fun t => (t.getV 1, t.getV VF)) (stepAt 0x200 0x8125 ((bare.setV 1 0x07).setV 2 0x07)) = some (0x00, 0x01) := by decide

/-- V-A15. -/
theorem test_sub_with_borrow :
    seen (fun t => (t.getV 1, t.getV VF)) (stepAt 0x200 0x8125 (bare.setV 2 0x01)) = some (0xFF, 0x00) := by decide

/-- V-A19. -/
theorem test_shr_in_VF_keeps_the_flag :
    seen (fun t => t.getV VF) (stepAt 0x200 0x8F06 (bare.setV VF 0x03)) = some 0x01 := by decide

/-- V-A21. -/
theorem test_shr_of_vy :
    seen (fun t => (t.getV 1, t.getV VF)) (stepAt 0x200 0x8126 (under (fun c => { c with shiftSrc := .vy })
      (bare.setV 2 0x03))) = some (0x01, 0x01) := by decide

/-- V-A17. -/
theorem test_subn_with_borrow :
    seen (fun t => (t.getV 1, t.getV VF)) (stepAt 0x200 0x8127 (bare.setV 1 0x01)) = some (0xFF, 0x00) := by decide

/-- V-A18. -/
theorem test_subn_without_borrow :
    seen (fun t => (t.getV 1, t.getV VF)) (stepAt 0x200 0x8127 ((bare.setV 1 0x10).setV 2 0x20)) = some (0x10, 0x01) := by decide

/-- V-A22. -/
theorem test_shl_shifts_out_a_one :
    seen (fun t => (t.getV 1, t.getV VF)) (stepAt 0x200 0x812E (bare.setV 1 0x80)) = some (0x00, 0x01) := by decide

/-- V-A23. -/
theorem test_shl_shifts_out_a_zero :
    seen (fun t => (t.getV 1, t.getV VF)) (stepAt 0x200 0x812E (bare.setV 1 0x7F)) = some (0xFE, 0x00) := by decide

/-- V-A26, with the draw 0xA5. -/
theorem test_rnd_masks_the_draw :
    seen (fun t => (t.getV 3, t.ms.pc, t.draws)) (rndWith 0xA5 3 0x0F bare) = some (0x05, 0x202, 1) := by decide

/-- V-A24, with the draw 0xA5. -/
theorem test_rnd_with_a_zero_mask :
    seen (fun t => t.getV 1) (rndWith 0xA5 1 0x00 (bare.setV 1 0x09)) = some 0x00 := by decide

/-- V-M1. -/
theorem test_ldI :
    seen (fun t => t.ms.i) (stepAt 0x200 0xAFFF bare) = some 0xFFF := by decide

/-- V-M3. -/
theorem test_addI_to_the_top :
    seen (fun t => t.ms.i) (stepAt 0x200 0xF11E ((pointing 0xFF0).setV 1 0x0F)) = some 0xFFF := by decide

/-- V-M2. -/
theorem test_addI_past_the_top_raises :
    errorOf (stepAt 0x200 0xF11E ((pointing 0xFFF).setV 1 0x01)) = some (.invalidMemoryAccess 0x1000) := by decide

/-- V-M5. -/
theorem test_ldF_uses_the_low_nibble :
    seen (fun t => t.ms.i) (stepAt 0x200 0xF129 (bare.setV 1 0x1A)) = some 0x032 := by decide

/-- V-M7. -/
theorem test_ldF_from_FONT_BASE :
    seen (fun t => t.ms.i) (stepAt 0x200 0xF129 (under (fun c => { c with fontBase := 0x050 })
      (bare.setV 1 0x0A))) = some 0x082 := by decide

/-- V-M9. -/
theorem test_ldB_stores_three_digits :
    seen (fun t => [0xFFD, 0xFFE, 0xFFF].map t.ms.mem.byteAt) (stepAt 0x200 0xF133 ((pointing 0xFFD).setV 1 255)) =
      some [0x02, 0x05, 0x05] := by decide

/-- V-M8. -/
theorem test_ldB_past_the_top_raises :
    errorOf (stepAt 0x200 0xF133 ((pointing 0xFFE).setV 1 123)) = some (.invalidMemoryAccess 0x1000) := by decide

/-- V-M15. -/
theorem test_ldMemVx_moves_I :
    seen (fun t => ([0x300, 0x301, 0x302, 0x303].map t.ms.mem.byteAt, t.ms.i)) (stepAt 0x200 0xF255
      (under (fun c => { c with ldstIInc := .xPlus1 }) ((((pointing 0x300).setV 0 1).setV 1 2).setV 2 3))) =
      some ([1, 2, 3, 0], 0x303) := by decide

/-- V-M16. -/
theorem test_ldMemVx_moving_I_past_the_top_raises :
    errorOf (stepAt 0x200 0xFF55 (under (fun c => { c with ldstIInc := .xPlus1 }) (pointing 0xFF0))) = some (.invalidMemoryAccess 0x1000) := by decide

/-- V-M14. -/
theorem test_ldVxMem_loads_all_sixteen :
    seen (fun t => (t.getV 0, t.getV 14, t.getV VF)) (stepAt 0x200 0xFF65
      (poke 0x30F [0x77] (poke 0x300 [0x11] (pointing 0x300)))) = some (0x11, 0x00, 0x77) := by decide

/-- V-M17. -/
theorem test_ldVxMem_reads_the_font :
    seen (fun t => t.ms.v.toList.take 6) (stepAt 0x200 0xF465 State.reset) = some [0xF0, 0x90, 0x90, 0x90, 0xF0, 0x00] := by decide

/-- V-T1. -/
theorem test_skp_skips :
    seen (fun t => t.ms.pc) (stepAt 0x200 0xE19E ((bare.setV 1 0x13).withKey 3 true)) = some 0x204 := by decide

/-- V-T2. -/
theorem test_sknp_does_not_skip :
    seen (fun t => t.ms.pc) (stepAt 0x200 0xE1A1 ((bare.setV 1 0x13).withKey 3 true)) = some 0x202 := by decide

/-- V-T5. -/
theorem test_ldVxDt :
    seen (fun t => (t.getV VF, t.ms.dt)) (stepAt 0x200 0xFF07 (bare.setDt 0x21)) = some (0x21, 0x21) := by decide

/-- V-T6. -/
theorem test_ldVxK_takes_the_lowest_key :
    seen (fun t => (t.getV 3, t.ms.pc)) (stepAt 0x200 0xF30A ((bare.withKey 2 true).withKey 9 true)) =
      some (0x02, 0x202) := by decide

/-- V-T8. -/
theorem test_ldVxK_waits_at_the_top :
    seen (fun t => (t.getV 3, t.ms.pc)) (stepAt 0xFFE 0xF30A bare) = some (0x00, 0xFFE) := by decide

/-- V-T10. -/
theorem test_ldDtVx :
    seen (fun t => t.ms.dt) (stepAt 0x200 0xF015 (bare.setDt 0x10)) = some 0x00 := by decide

/-- V-T11. -/
theorem test_ldStVx :
    seen (fun t => (t.ms.st, t.soundActive)) (stepAt 0x200 0xF118 (bare.setV 1 0x01)) = some (0x01, true) := by decide

/-- V-S2 (a). -/
theorem test_drw_wraps_and_reports_no_collision :
    seen (fun t => ([59, 60, 63, 0, 3, 4].map fun c => t.ms.disp.pixel 0 c, t.getV VF)) (stepAt 0x200 0xD011
      (poke 0x300 [0xFF] ((pointing 0x300).setV 0 60))) = some ([false, true, true, true, true, false], 0x00) := by decide

/-- V-G7. -/
theorem test_drw_reports_a_collision :
    seen (fun t => ([0, 1, 2, 3, 4].map fun c => t.ms.disp.pixel 0 c, t.getV VF)) (stepAt 0x200 0xD011
      (poke 0x300 [0xF0] ((pointing 0x300).setDisp (Display.blank.toggle 0 2)))) =
      some ([true, true, false, true, false], 0x01) := by decide

/-- V-D10. -/
theorem test_cls :
    seen (fun t => (t.ms.disp.pixel 0 0, t.ms.pc)) (stepAt 0x200 0x00E0 (under (fun c => { c with sysMode := .unknown })
      (bare.setDisp (Display.blank.toggle 0 0)))) = some (false, 0x202) := by decide

/-- V-D1. -/
theorem test_unknown_word_raises :
    errorOf (stepAt 0x200 0x5121 bare) = some (.unknownOpcode 0x5121) := by decide

/-! ### The host's operations -/

/-- V-H2. -/
theorem test_rewind_restores_the_keys :
    (match Block.run [.setKey 5 true, .pushSnapshot, .setKey 5 false, .rewind] (.loaded bare) with
      | .loaded t => t.isKeyPressed 5
      | .created _ => false) = true := by decide

/-- V-H7, V-H8, V-H9. -/
theorem test_refusals_change_nothing :
    ((Block.loaded bare).perform (.setSpeed 0)).2 = .refused .zeroMultiplier ∧
      ((Block.loaded bare).perform (.setKey 16 true)).2 = .refused (.keyIndexOutOfRange 16) ∧
      ((Block.created Config.default).perform .step).2 = .refused .noMachine := by decide

/-- V-T13. -/
theorem test_ticks_are_independent :
    (((bare.setDt 1).setSt 5).tickTimers.ms.dt, ((bare.setDt 1).setSt 5).tickTimers.ms.st) = (0, 4) := by decide

/-- V-H6: the ROM lies at 0x200 and the multiplier survives the load. -/
theorem test_load_places_the_rom :
    (match Block.run [.setSpeed 3, .load [0x6A, 0x2B], .step] (.loaded bare) with
      | .loaded t => (t.speedK, t.getV 10, t.ms.pc)
      | .created _ => (0, 0, 0)) = (3, 0x2B, 0x202) := by decide

/-! ### The end of a run (R291) -/

/-- The jump to itself ends the run once it has executed, and not before. -/
theorem test_run_ends_after_the_jump_to_itself :
    (Block.runToEnd [] (.loaded ((atPc 0x200).withFetchWord 16 0x1200))).2 = none ∧
      (Block.runToEnd [.tickTimers, .step] (.loaded ((atPc 0x200).withFetchWord 16 0x1200))).2 =
        some .jumpToSelf := by decide

/-- V-T8 and V-T9: a wait at 0xFFE is no end, and neither is the press of a key; the completing step that fails
is, with its error. -/
theorem test_run_ends_at_the_failed_step :
    (Block.runToEnd [.step, .setKey 1 true] (.loaded ((atPc 0xFFE).withFetchWord 16 0xF30A))).2 = none ∧
      (Block.runToEnd [.step, .setKey 1 true, .step, .step] (.loaded ((atPc 0xFFE).withFetchWord 16 0xF30A))).2 =
        some (.error (.invalidMemoryAccess 0x1000)) := by decide

/-! ### Witnesses: the hypotheses of each obligation can be met, each clause at the edge of its range -/

/-- A word at the pc of `s`. -/
def withWord (w : Nat) (s : State) : State := s.withFetchWord 16 w

/-- The edge of the advance: pc = 0xFFC can advance and 0xFFE cannot. -/
theorem witness_advance : PcLegal ((atPc 0xFFC).ms.pc.toNat + 2) ∧ ¬PcLegal ((atPc 0xFFE).ms.pc.toNat + 2) := by
  decide

theorem witness_DecodeOfEncodeGivesTheInstructionBack :
    (Instr.sys 0x0E1).wellFormed = true ∧ (Instr.drw 15 15 15).wellFormed = true ∧
      ∀ nnn, Instr.drw 15 15 15 ≠ .sys nnn := ⟨by decide, by decide, fun _ h => by cases h⟩

theorem witness_EncodeOfDecodeGivesTheWordBack :
    decode .nop 0x00E1 = .ok (.sys 0x0E1) ∧ decode .unknown 0xFF65 = .ok (.ldVxMem 15) := by decide

theorem witness_UnknownWordsAreTheListedClasses :
    decode .nop 0x5001 = .error (.unknown 0x5001) ∧ decode .nop 0x900F = .error (.unknown 0x900F) ∧
      decode .nop 0x8008 = .error (.unknown 0x8008) ∧ decode .nop 0xE09D = .error (.unknown 0xE09D) ∧
      decode .nop 0xFF66 = .error (.unknown 0xFF66) ∧ decode .unknown 0x00E1 = .error (.unknown 0x00E1) := by decide

theorem witness_StepExecutesTheWordAtPc :
    PcLegal (withWord 0x00E0 (atPc 0xFFE)).ms.pc.toNat ∧
      decode (withWord 0x00E0 (atPc 0xFFE)).cfg.sysMode (withWord 0x00E0 (atPc 0xFFE)).wordAtPc = .ok .cls ∧
      PcLegal (withWord 0x1200 (atPc 0x200)).ms.pc.toNat ∧
      decode (withWord 0x1200 (atPc 0x200)).cfg.sysMode (withWord 0x1200 (atPc 0x200)).wordAtPc = .ok (.jp 0x200) := by decide

theorem witness_UnknownWordFailsTheStepUnchanged :
    PcLegal (withWord 0x5121 (atPc 0x200)).ms.pc.toNat ∧ PcLegal (withWord 0x5121 (atPc 0xFFE)).ms.pc.toNat ∧
      decode .nop (withWord 0x5121 (atPc 0x200)).wordAtPc =
        .error (.unknown (withWord 0x5121 (atPc 0x200)).wordAtPc) ∧
      decode .nop (withWord 0x5121 (atPc 0xFFE)).wordAtPc =
        .error (.unknown (withWord 0x5121 (atPc 0xFFE)).wordAtPc) := by decide

theorem witness_FailedOperationsChangeNothing :
    ((Block.loaded bare).perform .rewind).2 = .err .bufferEmpty ∧
      ((Block.loaded bare).perform (.setSpeed 0)).2 = .refused .zeroMultiplier ∧
      ((Block.loaded (withWord 0x00EE bare)).perform .step).2 = .err .stackUnderflow := by decide

theorem witness_EachOperationRaisesOnlyItsErrors :
    errorOf (step (withWord 0x00EE bare)) = some .stackUnderflow ∧
      (∀ rom : List Byte, rom.length = 3585 → ((Block.loaded bare).perform (.load rom)).2 = .err .romTooLarge) ∧
      ((Block.loaded bare).perform .rewind).2 = .err .bufferEmpty := by
  refine ⟨by decide, ?_, by decide⟩
  intro rom h
  have hlong : ¬rom.length ≤ 3584 := by omega
  show (Block.settle (.loaded bare) (if rom.length ≤ 3584 then _ else .fault .romTooLarge)).2 = _
  rw [if_neg hlong]; rfl

theorem witness_StackErrorsComeFromCallAndRet :
    errorOf (exec (.call 0x300) (stacked [] 16 bare)) = some .stackOverflow ∧
      errorOf (exec .ret bare) = some .stackUnderflow ∧
      errorOf (exec (.call 0x300) (stacked [] 15 bare)) = none := by decide

theorem witness_ByteAccessesCheckTheirAddress :
    (poke 0x000 [0x01] (poke 0xFFF [0x77] bare)).ms.mem.wf = true ∧
      0xFFF < 0x1000 ∧ (0xFFF : Nat) ≤ 0xFFF := by decide

theorem witness_BlockAccessesReportTheFirstBadAddress :
    0xFFF < (pointing 0xFFE).ms.i.toNat + 2 ∧ 0xFFF < (pointing 0xFF1).ms.i.toNat + (15 : Reg).val ∧
      0xFFF < (pointing 0xFFF).ms.i.toNat + (2 : Fin 16).val - 1 ∧ (pointing 0xFFF).ms.i.toNat ≤ 0xFFF ∧
      0xFFF < (pointing 0x1000).ms.i.toNat + (0 : Reg).val := by decide

theorem witness_StoredBytesAreFetchedByTheNextStep :
    bare.ms.mem.wf = true ∧ (pointing 0x202).ms.i.toNat = (pointing 0x202).ms.pc.toNat + 2 ∧
      errorOf (exec (.ldMemVx 1) (pointing 0x202)) = none ∧ errorOf (exec (.ldB 1) (pointing 0x202)) = none := by decide

theorem witness_SysOnlyAdvances :
    (0x0DF : Addr) ≠ 0x0E0#12 ∧ (0x0DF : Addr) ≠ 0x0EE#12 ∧ bare.cfg.sysMode = .nop ∧
      PcLegal ((atPc 0xFFC).ms.pc.toNat + 2) ∧ ¬PcLegal ((atPc 0xFFE).ms.pc.toNat + 2) := by decide

theorem witness_RetPopsTheReturnAddress :
    bare.ms.sp.val = 0 ∧ (stacked [0x200] 1 bare).ms.sp.val = (0 : Fin 16).val + 1 ∧
      PcLegal (stacked [0x200] 1 bare).ms.stack[(0 : Fin 16)].toNat ∧
      PcLegal (stacked [0xFFE] 1 bare).ms.stack[(0 : Fin 16)].toNat ∧
      ¬PcLegal (stacked [0x1FF] 1 bare).ms.stack[(0 : Fin 16)].toNat ∧
      ¬PcLegal (stacked [0xFFF] 1 bare).ms.stack[(0 : Fin 16)].toNat ∧
      (stacked [] 16 bare).ms.sp.val = (15 : Fin 16).val + 1 := by decide

theorem witness_JpSetsPcToItsOperand :
    PcLegal (0x200 : Addr).toNat ∧ PcLegal (0xFFE : Addr).toNat ∧ ¬PcLegal (0x1FF : Addr).toNat ∧
      ¬PcLegal (0xFFF : Addr).toNat := by decide

theorem witness_CallPushesTheNextAddressAndJumps :
    (stacked [] 16 bare).ms.sp.val = 16 ∧ (atPc 0xFFE).ms.sp.val ≠ 16 ∧ ¬PcLegal ((atPc 0xFFE).ms.pc.toNat + 2) ∧
      (atPc 0xFFC).ms.sp.val ≠ 16 ∧ PcLegal ((atPc 0xFFC).ms.pc.toNat + 2) ∧ ¬PcLegal (0x1FF : Addr).toNat ∧
      (stacked [] 15 (atPc 0xFFC)).ms.sp.val = (15 : Fin 16).val ∧ PcLegal (0xFFE : Addr).toNat := by decide

theorem witness_RetAfterCallReturnsToTheNextInstruction :
    errorOf (exec (.call 0xFFE) (stacked [] 15 (atPc 0xFFC))) = none := by decide

theorem witness_JpV0JumpsToTheUnboundedSum :
    (0 : Reg).val = (if bare.cfg.jumpOffsetReg = .v0 then 0 else (0xF00 : Addr).toNat / 0x100) ∧
      (15 : Reg).val = (if JumpOffsetReg.vx = .v0 then 0 else (0xF00 : Addr).toNat / 0x100) ∧
      PcLegal ((0xF00 : Addr).toNat + (bare.setV 0 0xFE).ms.v[(0 : Reg)].toNat) ∧
      ¬PcLegal ((0xF00 : Addr).toNat + (bare.setV 0 0xFF).ms.v[(0 : Reg)].toNat) ∧
      PcLegal ((0x101 : Addr).toNat + (bare.setV 0 0xFF).ms.v[(0 : Reg)].toNat) ∧
      ¬PcLegal ((0x100 : Addr).toNat + (bare.setV 0 0xFF).ms.v[(0 : Reg)].toNat) := by decide

theorem witness_RegisterSkipsMoveByFourOrTwo :
    bare.ms.v[(3 : Reg)] = 0x00#8 ∧ bare.ms.v[(3 : Reg)] ≠ 0x42#8 ∧ (bare.setV 1 7).ms.v[(1 : Reg)] ≠ bare.ms.v[(2 : Reg)] ∧
      PcLegal ((atPc 0xFFA).ms.pc.toNat + 4) ∧ ¬PcLegal ((atPc 0xFFC).ms.pc.toNat + 4) ∧
      PcLegal ((atPc 0xFFC).ms.pc.toNat + 2) ∧ ¬PcLegal ((atPc 0xFFE).ms.pc.toNat + 2) := by decide

theorem witness_KeySkipsTestTheKeyOfTheLowNibble :
    (3 : KeyIndex).val = (bare.setV 1 0x13).ms.v[(1 : Reg)].toNat % 16 ∧
      ((bare.setV 1 0x13).withKey 3 true).ms.key[(3 : KeyIndex)] = true ∧
      (bare.setV 1 0x13).ms.key[(3 : KeyIndex)] = false ∧
      PcLegal ((atPc 0xFFA).ms.pc.toNat + 4) ∧ ¬PcLegal ((atPc 0xFFC).ms.pc.toNat + 4) ∧
      PcLegal ((atPc 0xFFC).ms.pc.toNat + 2) ∧ ¬PcLegal ((atPc 0xFFE).ms.pc.toNat + 2) := by decide

theorem witness_SkippedWordIsNeverRead :
    PcLegal (withWord 0x3300 bare).ms.pc.toNat ∧
      decode .nop (withWord 0x3300 bare).wordAtPc = .ok (.seImm 3 0x00) ∧
      seen (fun t => t.ms.pc) (step (withWord 0x3300 bare)) = some 0x204 ∧
      errorOf (step (withWord 0x3300 (atPc 0xFFC))) = some (.invalidMemoryAccess 0x1000) ∧
      ∀ a, a ≠ 0x202 → a ≠ 0x203 → Memory.byteAt [(0x202, 0x51)] a = Memory.byteAt [(0x203, 0x21)] a := by
  refine ⟨by decide, by decide, by decide, by decide, fun a h h' => ?_⟩
  simp [Memory.byteAt, h, h']

theorem witness_LoadsAndAddImmediateWriteOnlyVx :
    PcLegal ((atPc 0xFFC).ms.pc.toNat + 2) ∧ ¬PcLegal ((atPc 0xFFE).ms.pc.toNat + 2) := witness_advance

theorem witness_AddWritesTheSumThenTheCarry :
    PcLegal ((atPc 0xFFC).ms.pc.toNat + 2) ∧ ¬PcLegal ((atPc 0xFFE).ms.pc.toNat + 2) := witness_advance

theorem witness_SubtractionsWriteTheDifferenceThenNoBorrow :
    PcLegal ((atPc 0xFFC).ms.pc.toNat + 2) ∧ ¬PcLegal ((atPc 0xFFE).ms.pc.toNat + 2) := witness_advance

theorem witness_LdIWritesTheAddress :
    PcLegal ((atPc 0xFFC).ms.pc.toNat + 2) ∧ ¬PcLegal ((atPc 0xFFE).ms.pc.toNat + 2) := witness_advance

theorem witness_TimerInstructionsMoveTheTimers :
    PcLegal ((atPc 0xFFC).ms.pc.toNat + 2) ∧ ¬PcLegal ((atPc 0xFFE).ms.pc.toNat + 2) := witness_advance

theorem witness_ClsUnsetsEveryPixel :
    PcLegal ((atPc 0xFFC).ms.pc.toNat + 2) ∧ ¬PcLegal ((atPc 0xFFE).ms.pc.toNat + 2) := witness_advance

theorem witness_LogicWritesVxAndMayResetVF :
    (atPc 0xFFC).cfg.logicVfReset = false ∧
      (under (fun c => { c with logicVfReset := true }) (atPc 0xFFC)).cfg.logicVfReset = true ∧
      PcLegal ((atPc 0xFFC).ms.pc.toNat + 2) ∧ ¬PcLegal ((atPc 0xFFE).ms.pc.toNat + 2) := by decide

theorem witness_ShiftsWriteTheResultThenTheBitShiftedOut :
    bare.cfg.shiftSrc = .vx ∧ (under (fun c => { c with shiftSrc := .vy }) bare).cfg.shiftSrc ≠ .vx ∧
      PcLegal ((atPc 0xFFC).ms.pc.toNat + 2) ∧ ¬PcLegal ((atPc 0xFFE).ms.pc.toNat + 2) := by decide

theorem witness_RndMasksAFreshDraw :
    (∃ draw, draw = Config.rand8 (atPc 0xFFC).draws) ∧ PcLegal ((atPc 0xFFC).ms.pc.toNat + 2) ∧
      ¬PcLegal ((atPc 0xFFE).ms.pc.toNat + 2) := ⟨⟨_, rfl⟩, witness_advance⟩

theorem witness_FlagWinsWhenVFIsTheDestination :
    bare.cfg.shiftSrc = .vx ∧ errorOf (exec (.addReg 15 0) (atPc 0xFFC)) = none ∧
      errorOf (exec (.sub 15 0) bare) = none ∧ errorOf (exec (.subn 15 0) bare) = none ∧
      errorOf (exec (.shr 15 0) bare) = none ∧ errorOf (exec (.shl 15 0) bare) = none := by decide

theorem witness_AddIRaisesAboveTheAddressSpace :
    (pointing 0xFFF).ms.i.toNat + ((pointing 0xFFF).setV 1 0x01).ms.v[(1 : Reg)].toNat > 0xFFF ∧
      (pointing 0xFFE).ms.i.toNat + ((pointing 0xFFE).setV 1 0x01).ms.v[(1 : Reg)].toNat ≤ 0xFFF ∧
      PcLegal ((atPc 0xFFC).ms.pc.toNat + 2) ∧ ¬PcLegal ((atPc 0xFFE).ms.pc.toNat + 2) := by decide

theorem witness_LdFPointsAtTheGlyph :
    bare.cfg.legal = true ∧ (under (fun c => { c with fontBase := 0x1B0 }) bare).cfg.legal = true ∧
      PcLegal ((atPc 0xFFC).ms.pc.toNat + 2) ∧ ¬PcLegal ((atPc 0xFFE).ms.pc.toNat + 2) := by decide

theorem witness_LdBStoresThreeDigits :
    bare.ms.mem.wf = true ∧ (pointing 0xFFF).ms.i.toNat ≤ 0xFFF ∧ 0xFFF < (pointing 0xFFE).ms.i.toNat + 2 ∧
      (pointing 0xFFD).ms.i.toNat + 2 ≤ 0xFFF ∧ PcLegal ((atPc 0xFFC).ms.pc.toNat + 2) ∧ ¬PcLegal ((atPc 0xFFE).ms.pc.toNat + 2) := by decide

theorem witness_LdMemVxStoresTheRegisterBlock :
    bare.ms.mem.wf = true ∧ (pointing 0xFFF).ms.i.toNat ≤ 0xFFF ∧
      0xFFF < (pointing 0xFF1).ms.i.toNat + (15 : Reg).val ∧
      (pointing 0xFF0).ms.i.toNat + (15 : Reg).val ≤ 0xFFF ∧ 0xFFF < (pointing 0xFF0).ms.i.toNat + (15 : Reg).val + 1 ∧
      (pointing 0xFEF).ms.i.toNat + (15 : Reg).val + 1 ≤ 0xFFF ∧ bare.cfg.ldstIInc = .none ∧
      (under (fun c => { c with ldstIInc := .xPlus1 }) bare).cfg.ldstIInc = .xPlus1 ∧
      PcLegal ((atPc 0xFFC).ms.pc.toNat + 2) ∧ ¬PcLegal ((atPc 0xFFE).ms.pc.toNat + 2) := by decide

theorem witness_LdVxMemLoadsTheRegisterBlock :
    (pointing 0xFFF).ms.i.toNat ≤ 0xFFF ∧
      0xFFF < (pointing 0xFF1).ms.i.toNat + (15 : Reg).val ∧
      (pointing 0xFF0).ms.i.toNat + (15 : Reg).val ≤ 0xFFF ∧ 0xFFF < (pointing 0xFF0).ms.i.toNat + (15 : Reg).val + 1 ∧
      (pointing 0xFEF).ms.i.toNat + (15 : Reg).val + 1 ≤ 0xFFF ∧ bare.cfg.ldstIInc = .none ∧
      (under (fun c => { c with ldstIInc := .xPlus1 }) bare).cfg.ldstIInc = .xPlus1 ∧
      PcLegal ((atPc 0xFFC).ms.pc.toNat + 2) ∧ ¬PcLegal ((atPc 0xFFE).ms.pc.toNat + 2) := by decide

theorem witness_LdVxKWaitsForTheLowestKey :
    (∀ k : KeyIndex, bare.ms.key[k] = false) ∧ (bare.withKey 15 true).ms.key[(15 : KeyIndex)] = true ∧
      (∀ j : KeyIndex, j < 15 → (bare.withKey 15 true).ms.key[j] = false) ∧
      (bare.withKey 0 true).ms.key[(0 : KeyIndex)] = true ∧ (∀ j : KeyIndex, j < 0 → (bare.withKey 0 true).ms.key[j] = false) ∧
      PcLegal ((atPc 0xFFC).ms.pc.toNat + 2) ∧ ¬PcLegal ((atPc 0xFFE).ms.pc.toNat + 2) := by decide

theorem witness_DrwXorsTheSpriteAndReportsCollision :
    (pointing 0xFFF).ms.i.toNat ≤ 0xFFF ∧ 0xFFF < (pointing 0xFFF).ms.i.toNat + (2 : Fin 16).val - 1 ∧
      (pointing 0xFFF).ms.i.toNat + (1 : Fin 16).val ≤ 0x1000 ∧ PcLegal ((atPc 0xFFC).ms.pc.toNat + 2) ∧ ¬PcLegal ((atPc 0xFFE).ms.pc.toNat + 2) := by decide

theorem witness_DrwXorsTheSpriteAndReportsCollision_pixels :
    spriteSets (poke 0x300 [0x01] ((pointing 0x300).setV 0 63)) 0 1 1 0 6 ∧
      ((pointing 0x300).setDisp (Display.blank.toggle 0 6)).ms.disp.pixel 0 6 = true ∧
      ¬spriteSets (pointing 0x300) 0 1 0 0 6 := ⟨⟨0, 7, by decide⟩, by decide, fun ⟨j, _, hj, _⟩ => absurd hj (Nat.not_lt_zero j)⟩

theorem witness_RedrawingErasesTheSprite :
    (∃ t u, exec (.drw 0 1 1) (poke 0x300 [0x80] (pointing 0x300)) = .next t ∧ exec (.drw 0 1 1) t = .next u) ∧
      ((poke 0x300 [0x80] (pointing 0x300)).ms.mem.byteAt ((pointing 0x300).ms.i.toNat + 0)).getLsbD 7 = true ∧
      (∀ r c, (pointing 0x300).ms.disp.pixel r c = false) ∧ (0 : Reg) ≠ 15 ∧ (1 : Reg) ≠ 15 := by
  refine ⟨⟨_, _, rfl, rfl⟩, by decide, fun r c => ?_, by decide, by decide⟩
  simp [pointing, bare, State.setI, State.setMem, State.reset, State.afterLoad, MachineState.afterLoad, Display.blank,
    Display.pixel]

theorem witness_RegistersChangeOnlyWhereTheRulesSay :
    seen (fun t => t.getV 1 != bare.getV 1) (exec (.ldImm 1 0x01) bare) = some true ∧
      seen (fun t => t.getV 0 != (poke 0x300 [0x11] (pointing 0x300)).getV 0)
        (exec (.ldVxMem 15) (poke 0x300 [0x11] (pointing 0x300))) = some true ∧
      seen (fun t => t.getV VF != bare.getV VF) (exec (.sub 1 2) bare) = some true ∧
      seen (fun t => t.getV VF != (bare.setV VF 5).getV VF)
        (exec (.orReg 1 2) (under (fun c => { c with logicVfReset := true }) (bare.setV VF 5))) = some true := by decide

theorem witness_IndexAndTimersChangeOnlyWhereTheRulesSay :
    seen (fun t => t.ms.i != bare.ms.i) (exec (.ldI 0x300) bare) = some true ∧
      seen (fun t => t.ms.i != bare.ms.i) (exec (.ldMemVx 0) (under (fun c => { c with ldstIInc := .xPlus1 }) bare)) = some true ∧
      seen (fun t => t.ms.dt != bare.ms.dt) (exec (.ldDtVx 1) (bare.setV 1 1)) = some true ∧
      seen (fun t => t.ms.st != bare.ms.st) (exec (.ldStVx 1) (bare.setV 1 1)) = some true := by decide

theorem witness_OnlyCallAndRetTouchTheStack :
    seen (fun t => (t.ms.sp != bare.ms.sp, t.ms.stack != bare.ms.stack)) (exec (.call 0x300) bare) = some (true, true) ∧
      seen (fun t => t.ms.sp != 16) (exec .ret (stacked (List.replicate 16 0x202) 16 bare)) = some true := by decide

theorem witness_DisplayMemoryAndKeysChangeOnlyWhereTheRulesSay :
    seen (fun t => t.ms.disp.pixel 0 0 != bare.ms.disp.pixel 0 0) (exec (.drw 0 1 1) (poke 0x000 [0x80] bare)) = some true ∧
      seen (fun t => t.ms.mem != bare.ms.mem) (exec (.ldB 1) (bare.setV 1 7)) = some true := by decide

theorem witness_StepsIgnoreTheManagerState :
    errorOf (step (withWord 0x6A2B bare)) = none ∧ errorOf (step (withWord 0x00EE bare)) = some .stackUnderflow := by decide

/-- A block in use: one call deep, a key held, memory written, one snapshot in a buffer of one. -/
def busy : State :=
  { (withWord 0x00EE (poke 0xFFF [0x77] (stacked [0xFFE] 1 (bare.setI 0xFFF)))).withKey 5 true with
    snapbuf := [⟨bare.ms, 3⟩], frameCtr := 4, speedK := 2, cfg := { Config.default with snapCap := 1 } }

theorem busy_inv : busy.Inv where
  cfgLegal := by decide
  live := ⟨by decide, by decide, by decide, by decide⟩
  snapshots := by
    intro snap h
    obtain rfl : snap = ⟨bare.ms, 3⟩ := by simpa [busy] using h
    exact ⟨by decide, by decide, by decide, by decide⟩
  withinCap := by decide
  framesRise := by decide
  framesBelow := by decide
  speedPositive := by decide

theorem witness_EveryStepKeepsTheInvariant :
    busy.Inv ∧ errorOf (step busy) = none := ⟨busy_inv, by decide⟩

theorem witness_EveryOperationKeepsTheInvariant :
    (Block.loaded busy).Inv ∧ (Block.created Config.default).Inv := ⟨busy_inv, show Config.default.legal = true by decide⟩

theorem witness_RetNeverFaultsOnAPushedAddress :
    busy.Inv ∧ 0 < busy.ms.sp.val := ⟨busy_inv, by decide⟩

theorem witness_SetKeyWritesOneKey :
    15 = (15 : KeyIndex).val ∧ 16 ≤ 16 := by decide

theorem witness_ObservationsAndSpeedDoOnlyTheirPart :
    (bare.setSt 1).ms.st ≠ 0 ∧ bare.ms.st = 0 ∧ 1 ≤ 1 := by decide

theorem witness_PushAppendsACopyAndEvictsTheOldest :
    bare.snapbuf.length ≠ bare.cfg.snapCap ∧ busy.snapbuf = ⟨bare.ms, 3⟩ :: [] ∧
      busy.snapbuf.length = busy.cfg.snapCap := ⟨by decide, rfl, rfl⟩

theorem witness_RewindRestoresTheNewestSnapshot :
    busy.snapbuf = [] ++ [⟨bare.ms, 3⟩] ∧ bare.snapbuf = [] := ⟨rfl, rfl⟩

theorem witness_RewindsStepBackThroughThePushes :
    bare.snapbuf = [] ∧ 1 ≤ (under (fun c => { c with snapCap := 2 }) bare).cfg.snapCap ∧
      (∀ ops ∈ [[Op.step], [.setKey 3 true, .step], [.tickTimers]], ∀ op ∈ ops, op.keepsSnapshots = true) ∧
      2 ≤ min [[Op.step], [.setKey 3 true, .step], [.tickTimers]].length 2 := ⟨rfl, by decide, by decide, by decide⟩

theorem witness_LoadResetsEveryRegister :
    (List.replicate 3584 (0xFF : Byte)).length ≤ 3584 := Nat.le_of_eq List.length_replicate

theorem witness_LoadFillsMemory :
    (List.replicate 3584 (0xFF : Byte)).length ≤ 3584 ∧ (Block.created Config.default).config.legal = true ∧
      ((Block.loaded bare).perform (.load [0x6A, 0x2B])).1 = .loaded (State.afterLoad Config.default 1 0 [0x6A, 0x2B]) := ⟨Nat.le_of_eq List.length_replicate, by decide, rfl⟩

theorem witness_OversizedRomIsNotLoaded :
    3584 < (List.replicate 3585 (0xFF : Byte)).length := by rw [List.length_replicate]; decide

theorem witness_NothingRunsBeforeTheFirstLoad :
    ∀ bytes, Op.step ≠ .load bytes := fun _ h => by cases h

theorem witness_EmptyRomRunsToTheEndOfMemory :
    Config.default.legal = true ∧ Config.default.sysMode = .nop ∧ 1791 ≤ 1791 ∧
      ({ Config.default with sysMode := .unknown } : Config).legal = true := by decide

theorem witness_JumpToSelfIsAFixedPoint :
    PcLegal (withWord 0x1FFE (atPc 0xFFE)).ms.pc.toNat ∧ atJumpToSelf (withWord 0x1FFE (atPc 0xFFE)) = true ∧
      PcLegal (withWord 0x1200 (atPc 0x200)).ms.pc.toNat ∧
      atJumpToSelf (withWord 0x1200 (atPc 0x200)) = true := by decide

end Sys2Proof.Tests.Slice0
end

section
/-! Proofs of the family 00_scope.md: the flag bytes of 42_alu.md R142 in closed form, and R15 for VF as the
destination. -/

namespace Sys2Proof.Machine

/-! ### The flag bytes as conditions on the operands (R142) -/

theorem flagByte_decide (p : Prop) [Decidable p] : flagByte (decide p) = if p then 1#8 else 0#8 := by
  simp [flagByte]

theorem flagByte_carry (a b : Byte) : flagByte (carry a b) = if a.toNat + b.toNat > 255 then 1#8 else 0#8 :=
  flagByte_decide _

theorem flagByte_noBorrow (a b : Byte) : flagByte (noBorrow a b) = if a.toNat ≥ b.toNat then 1#8 else 0#8 :=
  flagByte_decide _

/-- Bit 0 says whether the byte is odd. -/
theorem flagByte_shiftedOutRight (a : Byte) :
    flagByte (shiftedOutRight a) = if a.toNat % 2 = 1 then 1#8 else 0#8 := by
  have hbit : shiftedOutRight a = decide (a.toNat % 2 = 1) := by
    rw [shiftedOutRight, BitVec.getLsbD, Nat.testBit_zero]
  rw [hbit, flagByte_decide]

/-- Bit 7, the top bit, says whether the byte is at least 128. -/
theorem flagByte_shiftedOutLeft (a : Byte) :
    flagByte (shiftedOutLeft a) = if 128 ≤ a.toNat then 1#8 else 0#8 := by
  have hbit : shiftedOutLeft a = decide (128 ≤ a.toNat) := BitVec.msb_eq_decide a
  rw [hbit, flagByte_decide]

theorem shiftOperand_vx {s : State} (h : s.cfg.shiftSrc = .vx) (x y : Reg) : shiftOperand x y s = s.getV x := by
  rw [shiftOperand, h]

/-! ### VF after an arithmetic instruction (R15, R143) -/

/-- An instruction that stages a result and then a flag leaves the flag in VF, whatever its destination. -/
theorem VF_of_advance_setResultAndFlag {s t : State} {x : Reg} {r : Byte} {c : Bool}
    (h : advance (s.setResultAndFlag x r c) = .next t) : t.ms.v[15] = flagByte c := by
  obtain ⟨-, rfl⟩ := advance_next h
  exact s.getV_setResultAndFlag_VF x r c

/-- Settles O28: each of the five stages its result before its flag, so with x = 0xF the flag is what stays. -/
theorem flagWinsWhenVFIsTheDestination : Obligations.FlagWinsWhenVFIsTheDestination := by
  intro s t y
  refine ⟨fun h => ?add, fun h => ?sub, fun h => ?subn, fun hsrc h => ?shr, fun hsrc h => ?shl⟩
  case add => exact (VF_of_advance_setResultAndFlag h).trans (flagByte_carry _ _)
  case sub => exact (VF_of_advance_setResultAndFlag h).trans (flagByte_noBorrow _ _)
  case subn => exact (VF_of_advance_setResultAndFlag h).trans (flagByte_noBorrow _ _)
  case shr =>
    have hflag := VF_of_advance_setResultAndFlag h
    rw [shiftOperand_vx hsrc] at hflag
    exact hflag.trans (flagByte_shiftedOutRight _)
  case shl =>
    have hflag := VF_of_advance_setResultAndFlag h
    rw [shiftOperand_vx hsrc] at hflag
    exact hflag.trans (flagByte_shiftedOutLeft _)

end Sys2Proof.Machine
end

section
/-! Proofs of the family 10_state.md: which instructions change which part of the state (R22 to R37), and the
invariants of R21, kept by every instruction and by every operation of the host. -/

namespace Sys2Proof.Machine

/-! ### What each part of the state can owe its change to

One lemma for each part of the machine state: the shapes of `Effect` that write it, and the instructions they
stand for. -/

section
variable {i : Instr} {s t : State}

theorem Effect.register_change {j : Reg} (h : Effect i s t) (hj : t.ms.v[j] ≠ s.ms.v[j]) :
    (∃ y kk, i ∈ [.ldImm j kk, .addImm j kk, .ldReg j y, .orReg j y, .andReg j y, .xorReg j y, .addReg j y,
      .sub j y, .shr j y, .subn j y, .shl j y, .rnd j kk, .ldVxDt j, .ldVxK j]) ∨
    (∃ x : Reg, j.val ≤ x.val ∧ i = .ldVxMem x) ∨
    (j = 15 ∧ ∃ x y n, i ∈ [.addReg x y, .sub x y, .shr x y, .subn x y, .shl x y, .drw x y n]) ∨
    (j = 15 ∧ s.cfg.logicVfReset = true ∧ ∃ x y, i ∈ [.orReg x y, .andReg x y, .xorReg x y]) := by
  cases h with
  | registers v _ changes =>
    obtain ⟨y, kk, hdest⟩ | ⟨hVF, x, y, hflag⟩ | hlogic := changes j hj
    · refine .inl ⟨y, kk, ?_⟩
      simp only [List.mem_cons] at hdest ⊢
      tauto
    · exact .inr (.inr (.inl ⟨hVF, x, y, 0, List.mem_append_left [_] hflag⟩))
    · exact .inr (.inr (.inr hlogic))
  | @draws x kk =>
    obtain rfl : j = x := eq_of_set_ne hj
    exact .inl ⟨0, kk, by simp⟩
  | @sprite x y n =>
    have hVF : j = 15 := eq_of_set_ne hj
    exact .inr (.inr (.inl ⟨hVF, x, y, n, by simp⟩))
  | @loads x _ _ _ changes => exact .inr (.inl ⟨x, changes j hj, rfl⟩)
  | _ => exact absurd rfl hj

theorem Effect.index_change (h : Effect i s t) (hi : t.ms.i ≠ s.ms.i) :
    (∃ nnn, i = .ldI nnn) ∨ (∃ x, i ∈ [.addI x, .ldF x]) ∨
      (s.cfg.ldstIInc = .xPlus1 ∧ ∃ x, i ∈ [.ldMemVx x, .ldVxMem x]) := by
  cases h with
  | index _ _ written => exact written.imp_right .inl
  | @stores x _ _ _ _ _ index =>
    obtain hsame | ⟨hcfg, -⟩ := index
    · exact absurd hsame hi
    · exact .inr (.inr ⟨hcfg, x, by simp⟩)
  | @loads x _ _ _ _ _ index =>
    obtain hsame | ⟨hcfg, -⟩ := index
    · exact absurd hsame hi
    · exact .inr (.inr ⟨hcfg, x, by simp⟩)
  | _ => exact absurd rfl hi

theorem Effect.delay_change (h : Effect i s t) (hdt : t.ms.dt ≠ s.ms.dt) : ∃ x, i = .ldDtVx x := by
  cases h with
  | @delay x => exact ⟨x, rfl⟩
  | _ => exact absurd rfl hdt

theorem Effect.sound_change (h : Effect i s t) (hst : t.ms.st ≠ s.ms.st) : ∃ x, i = .ldStVx x := by
  cases h with
  | @sound x => exact ⟨x, rfl⟩
  | _ => exact absurd rfl hst

theorem Effect.depth_change (h : Effect i s t) (hsp : t.ms.sp ≠ s.ms.sp) : (∃ nnn, i = .call nnn) ∨ i = .ret := by
  cases h with
  | @calls nnn => exact .inl ⟨nnn, rfl⟩
  | returns => exact .inr rfl
  | _ => exact absurd rfl hsp

theorem Effect.slots_change (h : Effect i s t) (hstack : t.ms.stack ≠ s.ms.stack) : ∃ nnn, i = .call nnn := by
  cases h with
  | @calls nnn => exact ⟨nnn, rfl⟩
  | _ => exact absurd rfl hstack

theorem Effect.depth_moves_at_most_one (h : Effect i s t) :
    t.ms.sp.val ≤ s.ms.sp.val + 1 ∧ s.ms.sp.val ≤ t.ms.sp.val + 1 := by
  cases h with
  | calls => exact ⟨Nat.le_refl _, by simp only; omega⟩
  | returns => exact ⟨by simp only; omega, by simp only; omega⟩
  | _ => exact ⟨Nat.le_succ _, Nat.le_succ _⟩

theorem Effect.display_change (h : Effect i s t) (hd : t.ms.disp ≠ s.ms.disp) :
    i = .cls ∨ ∃ x y n, i = .drw x y n := by
  cases h with
  | clears => exact .inl rfl
  | @sprite x y n => exact .inr ⟨x, y, n, rfl⟩
  | _ => exact absurd rfl hd

theorem Effect.memory_change (h : Effect i s t) (hm : t.ms.mem ≠ s.ms.mem) : ∃ x, i ∈ [.ldB x, .ldMemVx x] := by
  cases h with
  | @digits x => exact ⟨x, by simp⟩
  | @stores x => exact ⟨x, by simp⟩
  | _ => exact absurd rfl hm

theorem Effect.key_eq (h : Effect i s t) : t.ms.key = s.ms.key := by cases h <;> rfl

/-- No instruction touches the snapshot manager, the multiplier or the configuration (R238). -/
theorem Effect.manager_eq (h : Effect i s t) :
    t.snapbuf = s.snapbuf ∧ t.frameCtr = s.frameCtr ∧ t.speedK = s.speedK ∧ t.cfg = s.cfg := by
  cases h <;> exact ⟨rfl, rfl, rfl, rfl⟩

end

/-- Settles O40, from the shapes of a completed instruction that write a register. -/
theorem registersChangeOnlyWhereTheRulesSay : Obligations.RegistersChangeOnlyWhereTheRulesSay :=
  fun _ _ _ _ h hj => (exec_next h).register_change hj

/-- Settles O41, from the shapes that write I, DT and ST. -/
theorem indexAndTimersChangeOnlyWhereTheRulesSay : Obligations.IndexAndTimersChangeOnlyWhereTheRulesSay :=
  fun _ _ _ h => ⟨(exec_next h).index_change, (exec_next h).delay_change, (exec_next h).sound_change⟩

/-- Settles O42, from the two shapes that move the depth, of which CALL alone writes a slot. -/
theorem onlyCallAndRetTouchTheStack : Obligations.OnlyCallAndRetTouchTheStack :=
  fun _ _ _ h => ⟨(exec_next h).depth_change, (exec_next h).slots_change, (exec_next h).depth_moves_at_most_one⟩

/-- Settles O43, from the shapes that write the display and memory; none writes a key. -/
theorem displayMemoryAndKeysChangeOnlyWhereTheRulesSay :
    Obligations.DisplayMemoryAndKeysChangeOnlyWhereTheRulesSay :=
  fun _ _ _ h => ⟨(exec_next h).display_change, (exec_next h).memory_change, (exec_next h).key_eq⟩

/-! ### Every instruction keeps the invariants of the machine state -/

theorem PcLegal.ofNat {t : Nat} (h : PcLegal t) : PcLegal (BitVec.ofNat 16 t).toNat := by
  rwa [h.toNat_ofNat]

theorem PcLegal.add_two {w : Word} (h : PcLegal (w.toNat + 2)) : PcLegal (w + 2#16).toNat := by
  rw [← ofNat_toNat_add]
  exact h.ofNat

/-- A legal return address pushed on a stack of legal ones leaves every occupied slot legal (R103). -/
theorem stackLegal_push {stack : Vector Word 16} {sp : Nat} {w : Word} (hsp : sp < 16) (hw : PcLegal w.toNat)
    (h : ∀ k : Fin 16, k.val < sp → PcLegal stack[k.val].toNat) :
    ∀ k : Fin 16, k.val < sp + 1 → PcLegal (stack.set sp w)[k.val].toNat := by
  intro k hk
  rw [Vector.getElem_set]
  split
  · exact hw
  · exact h k (by omega)

/-- The bound on I (R25) where a block transfer may have moved it. -/
theorem index_le_of_kept_or_moved {i w : Word} {p : Prop} (h : w = i ∨ (p ∧ w.toNat ≤ 0xFFF))
    (hi : i.toNat ≤ 0xFFF) : w.toNat ≤ 0xFFF := by
  obtain rfl | ⟨-, hw⟩ := h
  · exact hi
  · exact hw

theorem Effect.keeps_machine_inv {i : Instr} {s t : State} (h : Effect i s t) (hcfg : s.cfg.legal = true)
    (hinv : s.ms.Inv) : t.ms.Inv := by
  cases h with
  | waits => exact hinv
  | pcOnly _ legal => exact { hinv with pcLegal := legal.ofNat }
  | returns _ legal =>
    have popped (k : Fin 16) (hk : k.val < s.ms.sp.val - 1) : PcLegal s.ms.stack[k.val].toNat :=
      hinv.stackLegal k (by omega)
    exact { hinv with pcLegal := legal, stackLegal := popped }
  | calls room legal target =>
    exact { hinv with pcLegal := target.ofNat, stackLegal := stackLegal_push room legal.add_two hinv.stackLegal }
  | index legal _ _ bound => exact { hinv with pcLegal := legal.add_two, indexLegal := bound hcfg }
  | digits legal _ wf => exact { hinv with pcLegal := legal.add_two, memWf := wf hinv.memWf }
  | stores legal _ wf _ index =>
    exact { hinv with
      pcLegal := legal.add_two
      memWf := wf hinv.memWf
      indexLegal := index_le_of_kept_or_moved index hinv.indexLegal }
  | loads legal _ _ _ index =>
    exact { hinv with pcLegal := legal.add_two, indexLegal := index_le_of_kept_or_moved index hinv.indexLegal }
  | registers _ legal | clears legal | draws legal | sprite legal | delay legal | sound legal =>
    exact { hinv with pcLegal := legal.add_two }

/-- A new machine state that meets its invariants, beside an unchanged manager. -/
theorem State.Inv.of_manager_eq {s t : State} (h : s.Inv) (hlive : t.ms.Inv)
    (hmanager : t.snapbuf = s.snapbuf ∧ t.frameCtr = s.frameCtr ∧ t.speedK = s.speedK ∧ t.cfg = s.cfg) : t.Inv := by
  obtain ⟨hbuf, hctr, hspeed, hcfg⟩ := hmanager
  exact {
    cfgLegal := hcfg ▸ h.cfgLegal
    live := hlive
    snapshots := hbuf ▸ h.snapshots
    withinCap := by rw [hbuf, hcfg]; exact h.withinCap
    framesRise := hbuf ▸ h.framesRise
    framesBelow := by rw [hbuf, hctr]; exact h.framesBelow
    speedPositive := hspeed ▸ h.speedPositive }

theorem Effect.keeps_inv {i : Instr} {s t : State} (h : Effect i s t) (hinv : s.Inv) : t.Inv :=
  hinv.of_manager_eq (h.keeps_machine_inv hinv.cfgLegal hinv.live) h.manager_eq

/-- A step that completes has executed the instruction its word decodes to (R80 to R82). -/
theorem step_next {s t : State} (h : step s = .next t) :
    ∃ w i, fetchWord s = .ok w ∧ decode s.cfg.sysMode w = .ok i ∧ exec i s = .next t := by
  obtain ⟨w, hw, h⟩ := attempt_next h
  cases hd : decode s.cfg.sysMode w with
  | ok i => rw [hd] at h; exact ⟨w, i, hw, hd, h⟩
  | error e => rw [hd] at h; cases h

theorem step_keeps_inv {s t : State} (hinv : s.Inv) (h : step s = .next t) : t.Inv := by
  obtain ⟨_, _, -, -, hexec⟩ := step_next h
  exact (exec_next hexec).keeps_inv hinv

/-- Settles O46: the executed instruction has one of the shapes of `Effect`, each of which keeps the
invariants. -/
theorem everyStepKeepsTheInvariant : Obligations.EveryStepKeepsTheInvariant :=
  fun _ _ => step_keeps_inv

/-! ### Load (R41, 70_reset_and_hazards.md R280) -/

theorem MachineState.afterLoad_inv {cfg : Config} {rom : List Byte} (hcfg : cfg.legal = true)
    (hrom : rom.length ≤ 3584) : (MachineState.afterLoad cfg rom).Inv where
  pcLegal := show PcLegal 0x200 by decide
  indexLegal := Nat.zero_le _
  memWf := Memory.wf_image hcfg hrom
  stackLegal := fun _ hk => absurd hk (Nat.not_lt_zero _)

theorem State.afterLoad_inv {cfg : Config} {speedK : Nat} {rom : List Byte} (draws : Nat) (hcfg : cfg.legal = true)
    (hspeed : 1 ≤ speedK) (hrom : rom.length ≤ 3584) : (State.afterLoad cfg speedK draws rom).Inv where
  cfgLegal := hcfg
  live := MachineState.afterLoad_inv hcfg hrom
  snapshots := fun _ h => absurd h List.not_mem_nil
  withinCap := Nat.zero_le _
  framesRise := .nil
  framesBelow := fun _ h => absurd h List.not_mem_nil
  speedPositive := hspeed

/-- Settles O45: reset is the load of the empty ROM under the default configuration, a legal one. -/
theorem resetMeetsTheInvariant : Obligations.ResetMeetsTheInvariant :=
  State.afterLoad_inv 0 (by decide) (Nat.le_refl 1) (Nat.zero_le _)

/-- A load that fits succeeds, on a created block as on a loaded one. -/
theorem Block.perform_load (b : Block) {rom : List Byte} (hrom : rom.length ≤ 3584) :
    ∃ draws, b.perform (.load rom) = (.loaded (State.afterLoad b.config b.speed draws rom), .ok) := by
  cases b with
  | created cfg => exact ⟨0, by simp only [Block.perform, Block.load, hrom, if_true]; rfl⟩
  | loaded s => exact ⟨s.draws, by simp only [Block.perform, State.perform, Block.load, hrom, if_true]; rfl⟩

/-- A load that does not fit changes nothing (70_reset_and_hazards.md R282). -/
theorem Block.perform_load_tooLarge (b : Block) {rom : List Byte} (hrom : ¬rom.length ≤ 3584) :
    b.perform (.load rom) = (b, .err .romTooLarge) := by
  cases b with
  | created cfg => simp only [Block.perform, Block.load, hrom, if_false]; rfl
  | loaded s => simp only [Block.perform, State.perform, Block.load, hrom, if_false]; rfl

/-- Settles O55: the block a load leaves is `State.afterLoad`, whose fields are the values of R41. -/
theorem loadResetsEveryRegister : Obligations.LoadResetsEveryRegister := by
  intro b rom hrom
  obtain ⟨draws, hload⟩ := b.perform_load hrom
  refine ⟨_, hload, fun x => ?_, rfl, rfl, fun k => ?_, rfl, rfl, rfl, fun r c => ?_, fun k => ?_, rfl, rfl, rfl, rfl⟩
  · exact Vector.getElem_replicate x.isLt
  · exact Vector.getElem_replicate k.isLt
  · simp [State.afterLoad, MachineState.afterLoad, Display.pixel, Display.blank]
  · exact Vector.getElem_replicate k.isLt

/-! ### The snapshot buffer (47_host_operations.md R231 to R233) -/

theorem evictIfFull_sublist (cap : Nat) (buf : List Snapshot) : (evictIfFull cap buf).Sublist buf := by
  unfold evictIfFull
  split
  · exact List.drop_sublist 1 buf
  · exact .refl buf

/-- After the eviction there is room for one more snapshot. -/
theorem length_evictIfFull_lt {cap : Nat} {buf : List Snapshot} (hcap : 1 ≤ cap) (hlen : buf.length ≤ cap) :
    (evictIfFull cap buf).length < cap := by
  unfold evictIfFull
  split
  · simp only [List.length_drop]; omega
  · omega

/-- Dropping snapshots keeps the invariants. -/
theorem State.Inv.of_sublist {s : State} {buf : List Snapshot} (h : s.Inv) (hsub : buf.Sublist s.snapbuf) :
    State.Inv { s with snapbuf := buf } :=
  { h with
    snapshots := fun snap hs => h.snapshots snap (hsub.subset hs)
    withinCap := hsub.length_le.trans h.withinCap
    framesRise := h.framesRise.sublist (hsub.map _)
    framesBelow := fun snap hs => h.framesBelow snap (hsub.subset hs) }

/-- Where there is room, the copy of the live machine state joins the buffer: its frame index is above all
that are there and below the next one (R232, R236). -/
theorem State.Inv.append_capture {s : State} (h : s.Inv) (hroom : s.snapbuf.length < s.cfg.snapCap) :
    State.Inv { s with snapbuf := s.snapbuf ++ [s.capture], frameCtr := s.frameCtr + 1 } :=
  { h with
    snapshots := by
      intro snap hs
      obtain hs | rfl := by simpa using hs
      · exact h.snapshots snap hs
      · exact h.live
    withinCap := by simp only [List.length_append, List.length_singleton]; omega
    framesRise := by
      simp only [List.map_append, List.pairwise_append]
      refine ⟨h.framesRise, List.pairwise_singleton .., ?_⟩
      simpa using h.framesBelow
    framesBelow := by
      intro snap hs
      obtain hs | rfl := by simpa using hs
      · exact Nat.lt_succ_of_lt (h.framesBelow snap hs)
      · exact Nat.lt_succ_self s.frameCtr }

theorem State.Inv.pushSnapshot {s : State} (h : s.Inv) : s.pushSnapshot.Inv := by
  have hcap : 1 ≤ s.cfg.snapCap := by
    have := h.cfgLegal
    simp only [Config.legal, Bool.and_eq_true, decide_eq_true_eq] at this
    exact this.2
  exact (h.of_sublist (evictIfFull_sublist s.cfg.snapCap s.snapbuf)).append_capture
    (length_evictIfFull_lt hcap h.withinCap)

/-- Everything a rewind can answer with a next state (R233). -/
theorem State.rewind_next {s t : State} (h : s.rewind = .next t) :
    ∃ snap, s.snapbuf.getLast? = some snap ∧ t = { s with ms := snap.ms, snapbuf := s.snapbuf.dropLast } := by
  unfold State.rewind at h
  split at h
  · cases h
  · cases h; exact ⟨_, ‹_›, rfl⟩

theorem State.Inv.rewind {s t : State} (h : s.Inv) (hrewind : s.rewind = .next t) : t.Inv := by
  obtain ⟨snap, hlast, rfl⟩ := State.rewind_next hrewind
  have hkept := h.of_sublist s.snapbuf.dropLast_sublist
  exact { hkept with live := h.snapshots snap (List.mem_of_getLast? hlast) }

/-! ### The other operations -/

theorem State.Inv.tickTimers {s : State} (h : s.Inv) : s.tickTimers.Inv :=
  h.of_manager_eq { h.live with } ⟨rfl, rfl, rfl, rfl⟩

theorem State.Inv.setKey {s t : State} {index : Nat} {pressed : Bool} (h : s.Inv)
    (hset : s.setKey index pressed = .next t) : t.Inv := by
  unfold State.setKey at hset
  split at hset
  · cases hset; exact h.of_manager_eq { h.live with } ⟨rfl, rfl, rfl, rfl⟩
  · cases hset

theorem State.Inv.setSpeed {s t : State} {k : Nat} (h : s.Inv) (hset : s.setSpeed k = .next t) : t.Inv := by
  unfold State.setSpeed at hset
  split at hset
  · cases hset; exact { h with speedPositive := ‹_› }
  · cases hset

/-! ### Every operation keeps the invariants -/

/-- An operation that fails or is refused leaves the block (R251), so its next state alone needs the
invariants. -/
theorem Block.settle_inv {b : Block} {a : Answer} (hb : b.Inv) (ha : ∀ t, a = .next t → t.Inv) :
    (b.settle a).1.Inv := by
  cases a with
  | next t => exact ha t rfl
  | fault e => exact hb
  | refused r => exact hb

theorem Block.config_legal {b : Block} (h : b.Inv) : b.config.legal = true := by
  cases b with
  | created cfg => exact h
  | loaded s => exact State.Inv.cfgLegal h

theorem Block.one_le_speed {b : Block} (h : b.Inv) : 1 ≤ b.speed := by
  cases b with
  | created cfg => exact Nat.le_refl 1
  | loaded s => exact State.Inv.speedPositive h

theorem Block.perform_load_inv {b : Block} (h : b.Inv) (rom : List Byte) : (b.perform (.load rom)).1.Inv := by
  by_cases hrom : rom.length ≤ 3584
  · obtain ⟨draws, hload⟩ := b.perform_load hrom
    rw [hload]
    exact State.afterLoad_inv draws (config_legal h) (one_le_speed h) hrom
  · rw [b.perform_load_tooLarge hrom]
    exact h

/-- Before the first load, every operation but a load leaves the block as it is (R42, R223). -/
theorem Block.perform_created {cfg : Config} {op : Op} (h : ∀ rom, op ≠ .load rom) :
    (Block.created cfg).perform op = (.created cfg, .refused .noMachine) := by
  cases op with
  | load rom => exact absurd rfl (h rom)
  | _ => rfl

theorem State.perform_inv {s : State} (h : s.Inv) (op : Op) : (s.perform op).1.Inv := by
  cases op with
  | load rom => exact Block.perform_load_inv (b := .loaded s) h rom
  | step => exact Block.settle_inv h fun _ => step_keeps_inv h
  | tickTimers => exact h.tickTimers
  | setKey index pressed => exact Block.settle_inv h fun _ => h.setKey
  | display => exact h
  | soundActive => exact h
  | pushSnapshot => exact h.pushSnapshot
  | rewind => exact Block.settle_inv h fun _ => h.rewind
  | setSpeed k => exact Block.settle_inv h fun _ => h.setSpeed

/-- Settles O47: a load leaves a block after reset, and every other operation keeps the invariants of a loaded
block and leaves a created one. -/
theorem everyOperationKeepsTheInvariant : Obligations.EveryOperationKeepsTheInvariant := by
  intro b op h
  cases b with
  | loaded s => exact State.perform_inv h op
  | created cfg =>
    by_cases hop : ∃ rom, op = .load rom
    · obtain ⟨rom, rfl⟩ := hop
      exact Block.perform_load_inv h rom
    · rw [Block.perform_created fun rom hrom => hop ⟨rom, hrom⟩]
      exact h

end Sys2Proof.Machine
end

section
/-! Proofs of the family 20_memory.md: the byte accesses of R55 and R56, the block accesses that leave memory
(R57), and the bytes an instruction stores where the next fetch reads (R65, 70_reset_and_hazards.md R287). -/

namespace Sys2Proof.Machine

/-! ### Byte accesses (R55, R56) -/

theorem memRead_eq_error {m : Memory} {a : Nat} (h : 0xFFF < a) : memRead m a = .error (.invalidMemoryAccess a) :=
  if_pos h

theorem memWrite_eq_error {m : Memory} {a : Nat} {b : Byte} (h : 0xFFF < a) :
    memWrite m a b = .error (.invalidMemoryAccess a) :=
  if_pos h

/-- Settles O10: the two sides of the bounds check, and the read after a write in canonical memory. -/
theorem byteAccessesCheckTheirAddress : Obligations.ByteAccessesCheckTheirAddress := by
  intro m a b hwf
  refine ⟨fun habove => ⟨memRead_eq_error habove, memWrite_eq_error habove⟩, fun hwithin => ?within⟩
  case within => exact ⟨memRead_eq_ok hwithin, m.put a b, memWrite_eq_ok hwithin, fun _ => Memory.byteAt_put hwf⟩

/-! ### Block accesses that leave memory (R57) -/

/-- An instruction that begins with a block read leaving memory ends there. -/
theorem attempt_readBytes_fault {m : Memory} {a n : Nat} (k : List Byte → Answer) (hn : 0 < n) (h : 0x1000 < a + n) :
    attempt (readBytes m a n) k = .fault (.invalidMemoryAccess (max a 0x1000)) := by
  rw [readBytes_eq_error hn h, attempt_error]

/-- An instruction that begins with a block write leaving memory ends there. -/
theorem attempt_writeBytes_fault {m : Memory} {a : Nat} {bs : List Byte} (k : Memory → Answer)
    (hn : 0 < bs.length) (h : 0x1000 < a + bs.length) :
    attempt (writeBytes m a bs) k = .fault (.invalidMemoryAccess (max a 0x1000)) := by
  rw [writeBytes_eq_error hn h, attempt_error]

/-- Settles O11: each of the four instructions begins with its block access, of 3, x + 1, x + 1 and n bytes. -/
theorem blockAccessesReportTheFirstBadAddress : Obligations.BlockAccessesReportTheFirstBadAddress := by
  intro s x y n
  refine ⟨fun h => ?digits, fun h => ⟨?store, ?load⟩, fun hn h => ?sprite, fun h => by omega⟩
  case digits => exact attempt_writeBytes_fault _ (by simp) (by simp only [length_bcdDigits]; omega)
  case store => exact attempt_writeBytes_fault _ (by simp) (by simp only [length_registerBlock]; omega)
  case load => exact attempt_readBytes_fault _ (by omega) (by omega)
  case sprite => exact attempt_readBytes_fault _ hn (by omega)

/-! ### Stored bytes and the next fetch (R65, R287) -/

/-- A non-empty block write that completes lies in memory. -/
theorem writeBytes_ok {m m' : Memory} {a : Nat} {bs : List Byte} (hn : 0 < bs.length)
    (h : writeBytes m a bs = .ok m') : a + bs.length ≤ 0x1000 ∧ m' = Memory.putBytes a bs m := by
  obtain ⟨hb, hr⟩ | ⟨-, -, hr⟩ := writeBytes_cases h
  · cases hr
    obtain rfl | hb := hb
    · cases hn
    · exact ⟨hb, rfl⟩
  · cases hr

/-- Everything LD B can answer with a next state (43_index_memory.md R163). -/
theorem exec_ldB_next {s t : State} {x : Reg} (h : exec (.ldB x) s = .next t) :
    s.ms.i.toNat + 3 ≤ 0x1000 ∧ PcLegal (s.ms.pc.toNat + 2) ∧
      t = s.completedWith { s.ms with mem := Memory.putBytes s.ms.i.toNat (bcdDigits (s.getV x)) s.ms.mem } := by
  obtain ⟨m, hm, h⟩ := attempt_next h
  obtain ⟨hfit, rfl⟩ := writeBytes_ok (by simp) hm
  obtain ⟨hl, rfl⟩ := advance_next h
  exact ⟨hfit, hl, rfl⟩

/-- Everything LD [I], Vx can answer with a next state (R164), the new I left open (R166). -/
theorem exec_ldMemVx_next {s t : State} {x : Reg} (h : exec (.ldMemVx x) s = .next t) :
    s.ms.i.toNat + (x.val + 1) ≤ 0x1000 ∧ PcLegal (s.ms.pc.toNat + 2) ∧ ∃ w,
      t = s.completedWith { s.ms with
        mem := Memory.putBytes s.ms.i.toNat (registerBlock x s.ms.v) s.ms.mem, i := w } := by
  obtain ⟨m, hm, h⟩ := attempt_next h
  obtain ⟨hfit, rfl⟩ := writeBytes_ok (by simp) hm
  obtain ⟨u, hu, h⟩ := attempt_next h
  obtain ⟨hl, rfl⟩ := advance_next h
  rw [length_registerBlock] at hfit
  obtain ⟨-, rfl⟩ | ⟨-, -, rfl⟩ := indexAfterBlock_ok hu
  · exact ⟨hfit, hl, s.ms.i, rfl⟩
  · exact ⟨hfit, hl, _, rfl⟩

/-- A completed instruction that stored two bytes or more from pc + 2 up has stored the word of the next fetch. -/
theorem fetchWord_completedWith_putBytes {s : State} {ms : MachineState} {bs : List Byte}
    (hwf : s.ms.mem.wf = true) (hi : s.ms.i.toNat = s.ms.pc.toNat + 2) (hpc : PcLegal (s.ms.pc.toNat + 2))
    (hlen : 2 ≤ bs.length) (hfit : s.ms.i.toNat + bs.length ≤ 0x1000)
    (hmem : ms.mem = Memory.putBytes s.ms.i.toNat bs s.ms.mem) :
    fetchWord (s.completedWith ms) = .ok (bs.getD 0 Memory.unlisted ++ bs.getD 1 Memory.unlisted) := by
  have hpc' : (s.completedWith ms).ms.pc.toNat = s.ms.i.toNat := by
    rw [hi, ← hpc.toNat_ofNat, ofNat_toNat_add]; rfl
  have hmem' : (s.completedWith ms).ms.mem = Memory.putBytes s.ms.i.toNat bs s.ms.mem := hmem
  have hbyte (k : Nat) (hk : k < bs.length) :
      (Memory.putBytes s.ms.i.toNat bs s.ms.mem).byteAt (s.ms.i.toNat + k) = bs.getD k Memory.unlisted := by
    rw [Memory.byteAt_putBytes hwf hfit, if_pos (by omega), Nat.add_sub_cancel_left]
  rw [fetchWord_legal (by rwa [hpc', hi]), hpc', hmem', hbyte 1 hlen, ← hbyte 0 (by omega)]
  rfl

/-- Settles O12: LD [I], Vx with x >= 1 stores V0 and V1 first, LD B the hundreds and the tens, where the next
fetch reads. -/
theorem storedBytesAreFetchedByTheNextStep : Obligations.StoredBytesAreFetchedByTheNextStep := by
  intro s t x hwf hi
  refine ⟨fun hx h => ?store, fun h => ?digits⟩
  case store =>
    obtain ⟨hfit, hpc, w, rfl⟩ := exec_ldMemVx_next h
    rw [fetchWord_completedWith_putBytes (bs := registerBlock x s.ms.v) hwf hi hpc (by simpa using hx)
      (by simpa using hfit) rfl, getD_registerBlock (Nat.zero_le _), getD_registerBlock hx]
  case digits =>
    obtain ⟨hfit, hpc, rfl⟩ := exec_ldB_next h
    exact fetchWord_completedWith_putBytes (bs := bcdDigits (s.getV x)) hwf hi hpc (by simp) (by simpa using hfit) rfl

end Sys2Proof.Machine
end

section
/-! Proofs of the family 30_encoding.md: the round trips of decode and encode (R75 to R77, R88), the Unknown words
(R78), and the step on the word at pc (R80 to R82). -/

namespace Sys2Proof

/-! ### Decoding an encoded word (R75, R88) -/

theorem encodeNNN_inj {op : BitVec 4} {a b : Addr} : encodeNNN op a = encodeNNN op b ↔ a = b :=
  ⟨fun h => by simpa using congrArg nnnField h, congrArg (encodeNNN op)⟩

/-- SYS is well-formed when its word is neither of the two fixed words of its group (R100). -/
theorem wellFormed_sys_iff {nnn : Addr} :
    (Instr.sys nnn).wellFormed = true ↔ encode (.sys nnn) ≠ 0x00E0#16 ∧ encode (.sys nnn) ≠ 0x00EE#16 := by
  change (nnn != 0x0E0#12 && nnn != 0x0EE#12) = true ↔
    encodeNNN 0x0 nnn ≠ encodeNNN 0x0 0x0E0#12 ∧ encodeNNN 0x0 nnn ≠ encodeNNN 0x0 0x0EE#12
  simp only [Bool.and_eq_true, bne_iff_ne, ne_eq, encodeNNN_inj]

theorem decode_encode_sys {nnn : Addr} (h : (Instr.sys nnn).wellFormed = true) :
    decode .nop (encode (.sys nnn)) = .ok (.sys nnn) := by
  obtain ⟨hcls, hret⟩ := wellFormed_sys_iff.mp h
  obtain ⟨hop, hnnn⟩ := Laws.EncodedFields.sys nnn
  simp [decode, decodeGroup0, hop, hnnn, hcls, hret]

/-- Settles O2: the fields of an encoded word are the operands and the fixed bits that decode dispatches on, and
the word of a well-formed SYS is neither of the two fixed words. -/
theorem decodeOfEncodeGivesTheInstructionBack : Obligations.DecodeOfEncodeGivesTheInstructionBack := by
  intro mode i hwf hmode
  cases i with
  | sys nnn =>
    obtain rfl | hne := hmode
    · exact decode_encode_sys hwf
    · exact absurd rfl (hne nnn)
  | cls | ret => rfl
  | ldReg | orReg | andReg | xorReg | addReg | sub | shr | subn | shl => simp [encode, decode, decodeGroup8]
  | skp | sknp => simp [encode, decode, decodeGroupE]
  | ldVxDt | ldVxK | ldDtVx | ldStVx | addI | ldF | ldB | ldMemVx | ldVxMem => simp [encode, decode, decodeGroupF]
  | _ => simp [encode, decode]

/-! ### Encoding a decoded word (R77, R88)

One lemma for each format of R73: a word from its fields, the fixed bits written as literals. -/

section
variable {w : Word} {op : BitVec 4}

theorem encodeNNN_eq (hop : (opField w).toNat = op.toNat) : encodeNNN op (nnnField w) = w := by
  rw [← BitVec.eq_of_toNat_eq hop, encodeNNN_fields]

theorem encodeXKK_eq (hop : (opField w).toNat = op.toNat) : encodeXKK op (xField w) (kkField w) = w := by
  rw [← BitVec.eq_of_toNat_eq hop, encodeXKK_fields]

theorem encodeXSub_eq {kk : Byte} (hop : (opField w).toNat = op.toNat) (hkk : (kkField w).toNat = kk.toNat) :
    encodeXKK op (xField w) kk = w := by
  rw [← BitVec.eq_of_toNat_eq hkk, encodeXKK_eq hop]

theorem encodeXYN_eq (hop : (opField w).toNat = op.toNat) :
    encodeXYN op (xField w) (yField w) (nField w) = w := by
  rw [← BitVec.eq_of_toNat_eq hop, encodeXYN_fields]

theorem encodeXYSub_eq {n : Fin 16} (hop : (opField w).toNat = op.toNat) (hn : (nField w).val = n.val) :
    encodeXYN op (xField w) (yField w) n = w := by
  rw [← Fin.ext hn, encodeXYN_eq hop]

end

section
variable {mode : SysMode} {w : Word} {i : Instr}

theorem decodeGroup0_ok (hop : (opField w).toNat = 0x0) (h : decodeGroup0 mode w = .ok i) :
    i.wellFormed = true ∧ encode i = w := by
  unfold decodeGroup0 at h
  split at h
  next hw => cases h; exact ⟨rfl, hw.symm⟩
  next hcls =>
    split at h
    next hw => cases h; exact ⟨rfl, hw.symm⟩
    next hret =>
      cases mode with
      | nop =>
        cases h
        have hw : encode (.sys (nnnField w)) = w := encodeNNN_eq hop
        exact ⟨wellFormed_sys_iff.mpr (by rw [hw]; exact ⟨hcls, hret⟩), hw⟩
      | unknown => cases h

theorem decodeGroup8_ok (hop : (opField w).toNat = 0x8) (h : decodeGroup8 w = .ok i) :
    i.wellFormed = true ∧ encode i = w := by
  unfold decodeGroup8 at h
  split at h <;> cases h <;> exact ⟨rfl, encodeXYSub_eq hop ‹_›⟩

theorem decodeGroupE_ok (hop : (opField w).toNat = 0xE) (h : decodeGroupE w = .ok i) :
    i.wellFormed = true ∧ encode i = w := by
  unfold decodeGroupE at h
  split at h <;> cases h <;> exact ⟨rfl, encodeXSub_eq hop ‹_›⟩

theorem decodeGroupF_ok (hop : (opField w).toNat = 0xF) (h : decodeGroupF w = .ok i) :
    i.wellFormed = true ∧ encode i = w := by
  unfold decodeGroupF at h
  split at h <;> cases h <;> exact ⟨rfl, encodeXSub_eq hop ‹_›⟩

end

/-- Settles O3, by the dispatch on the high nibble: each instruction that decode answers holds the fields of the
word, which its format puts together again. -/
theorem encodeOfDecodeGivesTheWordBack : Obligations.EncodeOfDecodeGivesTheWordBack := by
  intro mode w i h
  unfold decode at h
  split at h
  case h_1 hop => exact decodeGroup0_ok hop h
  case h_9 hop => exact decodeGroup8_ok hop h
  case h_15 hop => exact decodeGroupE_ok hop h
  case h_16 hop => exact decodeGroupF_ok hop h
  case h_2 hop | h_3 hop | h_11 hop | h_12 hop => cases h; exact ⟨rfl, encodeNNN_eq hop⟩
  case h_4 hop | h_5 hop | h_7 hop | h_8 hop | h_13 hop => cases h; exact ⟨rfl, encodeXKK_eq hop⟩
  case h_6 hop | h_10 hop =>
    split at h
    next hn => cases h; exact ⟨rfl, encodeXYSub_eq hop (congrArg Fin.val hn)⟩
    next => cases h
  case h_14 hop => cases h; exact ⟨rfl, encodeXYN_eq hop⟩
  case h_17 => cases h

/-! ### The Unknown words (R78) -/

section
variable (w : Word)

theorem toNat_opField : (opField w).toNat = w.toNat / 0x1000 := by
  simp only [opField, BitVec.extractLsb'_toNat, Nat.shiftRight_eq_div_pow]
  omega

theorem toNat_kkField : (kkField w).toNat = w.toNat % 0x100 := by
  simp [kkField]

theorem val_nField : (nField w).val = w.toNat % 0x10 := by
  simp [nField]

theorem decodeGroup0_unknown_iff (mode : SysMode) :
    decodeGroup0 mode w = .error (.unknown w) ↔ mode = .unknown ∧ w ≠ 0x00E0#16 ∧ w ≠ 0x00EE#16 := by
  unfold decodeGroup0
  split
  next hcls => simp [hcls]
  next hcls =>
    split
    next hret => simp [hret]
    next hret => cases mode <;> simp [hcls, hret]

theorem decodeGroup8_unknown_iff :
    decodeGroup8 w = .error (.unknown w) ↔ w.toNat % 0x10 ∈ [0x8, 0x9, 0xA, 0xB, 0xC, 0xD, 0xF] := by
  rw [← val_nField]
  have hlt := (nField w).isLt
  unfold decodeGroup8
  split
  case h_10 =>
    simp only [imp_false] at *
    simp only [List.mem_cons, List.not_mem_nil, or_false, true_iff]
    omega
  all_goals simp [*]

theorem decodeGroupE_unknown_iff :
    decodeGroupE w = .error (.unknown w) ↔ w.toNat % 0x100 ∉ [0x9E, 0xA1] := by
  rw [← toNat_kkField]
  unfold decodeGroupE
  split <;> simp_all

theorem decodeGroupF_unknown_iff :
    decodeGroupF w = .error (.unknown w) ↔
      w.toNat % 0x100 ∉ [0x07, 0x0A, 0x15, 0x18, 0x1E, 0x29, 0x33, 0x55, 0x65] := by
  rw [← toNat_kkField]
  unfold decodeGroupF
  split <;> simp_all

end

/-- Settles O4, by the dispatch on the high nibble: it leaves the class of that nibble, or none where every word
of the nibble decodes. -/
theorem unknownWordsAreTheListedClasses : Obligations.UnknownWordsAreTheListedClasses := by
  intro mode w
  rw [← toNat_opField]
  have hlt := (opField w).isLt
  unfold decode
  split
  case h_1 hop => simp [hop, decodeGroup0_unknown_iff]
  case h_9 hop => simp [hop, decodeGroup8_unknown_iff]
  case h_15 hop => simp [hop, decodeGroupE_unknown_iff]
  case h_16 hop => simp [hop, decodeGroupF_unknown_iff]
  case h_6 hop | h_10 hop => simp [hop, ← val_nField]
  case h_17 =>
    exfalso
    simp only [imp_false] at *
    omega
  -- Every word of the other nibbles decodes.
  all_goals simp [*]

/-- Settles O1, by running decode on the nineteen words. -/
theorem listedWordsDecodeAsListed : Obligations.ListedWordsDecodeAsListed := by
  unfold Obligations.ListedWordsDecodeAsListed
  decide

end Sys2Proof

namespace Sys2Proof.Machine

/-! ### The step on the word at pc (R80 to R82) -/

section
variable {s : State}

theorem fetchWord_eq_wordAtPc (h : PcLegal s.ms.pc.toNat) : fetchWord s = .ok s.wordAtPc :=
  fetchWord_legal h

theorem step_of_decode_ok {i : Instr} (hpc : PcLegal s.ms.pc.toNat)
    (h : decode s.cfg.sysMode s.wordAtPc = .ok i) : step s = exec i s := by
  simp only [step, fetchWord_eq_wordAtPc hpc, attempt_ok, h]

theorem step_of_decode_error {e : DecodeError} (hpc : PcLegal s.ms.pc.toNat)
    (h : decode s.cfg.sysMode s.wordAtPc = .error e) : step s = .fault (.unknownOpcode s.wordAtPc) := by
  simp only [step, fetchWord_eq_wordAtPc hpc, attempt_ok, h, raise]

/-- A failing step leaves the whole block (R251). -/
theorem perform_step_of_fault {e : Fault} (h : step s = .fault e) :
    (Block.loaded s).perform .step = (.loaded s, .err e) := by
  simp only [Block.perform, State.perform, h, Block.settle]

end

/-- Settles O5, from the fetch at a legal pc. -/
theorem stepExecutesTheWordAtPc : Obligations.StepExecutesTheWordAtPc :=
  fun _ _ hpc => ⟨fetchWord_eq_wordAtPc hpc, step_of_decode_ok hpc⟩

/-- Settles O6: the fault carries the fetched word, and a failing step leaves the block. -/
theorem unknownWordFailsTheStepUnchanged : Obligations.UnknownWordFailsTheStepUnchanged :=
  fun _ hpc h => ⟨step_of_decode_error hpc h, perform_step_of_fault (step_of_decode_error hpc h)⟩

end Sys2Proof.Machine
end

section
/-! Proofs of the family 41_control_flow.md: the jumps, CALL and RET on the stack (R100 to R104), the register
skips (R105 to R108), and the word a skip may pass over, which it never reads (R109). -/

namespace Sys2Proof.Machine

/-! ### The words of the family (R88)

The patterns of R76 that the statements write out are the words of `encode` by definition. -/

theorem decode_encode {i : Instr} (hwf : i.wellFormed = true) (hsys : ∀ nnn, i ≠ .sys nnn) (mode : SysMode) :
    decode mode (encode i) = .ok i :=
  decodeOfEncodeGivesTheInstructionBack mode i hwf (.inr hsys)

/-- A word that could be SYS is Unknown under SYS_MODE = unknown (R78, R100). -/
theorem decode_unknown_ne_sys (w : Word) (nnn : Addr) : decode .unknown w ≠ .ok (.sys nnn) := by
  intro h
  obtain ⟨hwf, rfl⟩ := encodeOfDecodeGivesTheWordBack .unknown w _ h
  obtain ⟨hcls, hret⟩ := wellFormed_sys_iff.mp hwf
  obtain ⟨hop, -⟩ := Laws.EncodedFields.sys nnn
  have hgroup : decode .unknown (encode (.sys nnn)) = decodeGroup0 .unknown (encode (.sys nnn)) := by
    simp [decode, hop]
  rw [hgroup, (decodeGroup0_unknown_iff _ .unknown).mpr ⟨rfl, hcls, hret⟩] at h
  cases h

/-! ### The pc write at a word, an address field and a displacement (30_encoding.md R84) -/

section
variable {s t : State}

theorem setPc_toNat_legal {w : Word} (s : State) (h : PcLegal w.toNat) : setPc w.toNat s = .next (s.withPc w) := by
  rw [setPc_legal s h, BitVec.ofNat_toNat, BitVec.setWidth_eq]

theorem setPc_displaced_legal {d : Nat} (h : PcLegal (s.ms.pc.toNat + d)) :
    setPc (s.ms.pc.toNat + d) s = .next (s.withPc (s.ms.pc + BitVec.ofNat 16 d)) := by
  rw [setPc_legal s h, ofNat_toNat_add]

theorem setPc_addr_legal {nnn : Addr} (s : State) (h : PcLegal nnn.toNat) :
    setPc nnn.toNat s = .next (s.withPc (nnn.setWidth 16)) := by
  rw [setPc_legal s h, BitVec.ofNat_toNat]

/-! ### The call stack at a known depth (10_state.md R30, R31) -/

theorem State.push_full (w : Word) (h : s.ms.sp.val = 16) : s.push w = .error .stackOverflow :=
  dif_neg (by omega)

/-- `k` is the depth before the push. -/
theorem State.push_at (w : Word) {k : Fin 16} (h : s.ms.sp.val = k.val) :
    s.push w = .ok (s.setStack (s.ms.stack.set k.val w) k.succ) := by
  have hsp : s.ms.sp = k.castSucc := Fin.ext h
  simp only [State.push, hsp]
  exact dif_pos k.isLt

theorem State.pop_empty (h : s.ms.sp.val = 0) : s.pop = .error .stackUnderflow :=
  dif_neg (by omega)

/-- `k` is the depth after the pop. -/
theorem State.pop_at {k : Fin 16} (h : s.ms.sp.val = k.val + 1) :
    s.pop = .ok (s.ms.stack[k], s.setStack s.ms.stack k.castSucc) := by
  have hsp : s.ms.sp = k.succ := Fin.ext h
  simp only [State.pop, hsp]
  exact dif_pos (Nat.succ_pos k.val)

/-! ### RET (R101) -/

theorem exec_ret_at {k : Fin 16} (h : s.ms.sp.val = k.val + 1) :
    exec .ret s = setPc s.ms.stack[k].toNat (s.setStack s.ms.stack k.castSucc) := by
  rw [exec, execRet, State.pop_at h, attempt_ok]

theorem exec_ret_legal {k : Fin 16} (h : s.ms.sp.val = k.val + 1) (hpc : PcLegal s.ms.stack[k].toNat) :
    exec .ret s = .next { s with ms := { s.ms with pc := s.ms.stack[k], sp := k.castSucc } } := by
  rw [exec_ret_at h, setPc_toNat_legal _ hpc]
  rfl

/-! ### CALL (R103) -/

theorem exec_call_at (nnn : Addr) {k : Fin 16} (h : s.ms.sp.val = k.val) :
    exec (.call nnn) s = attempt (checkPc (s.ms.pc.toNat + 2)) fun _ =>
      setPc nnn.toNat (s.setStack (s.ms.stack.set k.val (s.ms.pc + 2#16)) k.succ) := by
  rw [exec, execCall, State.push_at _ h, attempt_ok]

/-- A CALL with room on the stack and a legal return address is left with its target. -/
theorem exec_call_legal_return (nnn : Addr) {k : Fin 16} (h : s.ms.sp.val = k.val)
    (hret : PcLegal (s.ms.pc.toNat + 2)) :
    exec (.call nnn) s = setPc nnn.toNat (s.setStack (s.ms.stack.set k.val (s.ms.pc + 2#16)) k.succ) := by
  rw [exec_call_at nnn h, checkPc_ok hret, attempt_ok]

theorem exists_depth_of_ne_full (h : s.ms.sp.val ≠ 16) : ∃ k : Fin 16, s.ms.sp.val = k.val :=
  ⟨⟨s.ms.sp.val, by omega⟩, rfl⟩

theorem PcLegal.of_checkPc {a : Nat} {w : Word} (h : checkPc a = .ok w) : PcLegal a := by
  by_contra hbad
  rw [checkPc_error hbad] at h
  cases h

/-- Everything CALL can answer with a next state; `k` is the slot it fills. -/
theorem exec_call_next {nnn : Addr} (h : exec (.call nnn) s = .next t) :
    ∃ k : Fin 16, s.ms.sp.val = k.val ∧ PcLegal (s.ms.pc.toNat + 2) ∧
      t = (s.setStack (s.ms.stack.set k.val (s.ms.pc + 2#16)) k.succ).withPc (BitVec.ofNat 16 nnn.toNat) := by
  obtain ⟨u, hpush, h⟩ := attempt_next h
  obtain ⟨w, hret, h⟩ := attempt_next h
  obtain ⟨hroom, rfl⟩ := State.push_ok hpush
  obtain ⟨-, rfl⟩ := setPc_next h
  exact ⟨⟨s.ms.sp.val, hroom⟩, rfl, .of_checkPc hret, rfl⟩

/-! ### SYS and the jumps (R100, R102, R104) -/

theorem exec_sys_nop (nnn : Addr) (h : s.cfg.sysMode = .nop) : exec (.sys nnn) s = advance s := by
  rw [exec, execSys, h]

theorem val_jumpOffsetRegister (cfg : Config) (nnn : Addr) :
    (jumpOffsetRegister cfg nnn).val = if cfg.jumpOffsetReg = .v0 then 0 else nnn.toNat / 0x100 := by
  have hnnn := nnn.isLt
  unfold jumpOffsetRegister
  split
  next hv0 => simp [hv0]
  next hvx =>
    simp only [hvx, BitVec.val_toFin, BitVec.extractLsb'_toNat, Nat.shiftRight_eq_div_pow, reduceCtorEq, if_false]
    omega

/-! ### The skips (R105 to R109) -/

/-- A skip whose condition is written as a proposition. -/
theorem skipIf_of_iff {c : Bool} {p : Prop} [Decidable p] (s : State) (h : c = true ↔ p) :
    skipIf c s = setPc (s.ms.pc.toNat + if p then 4 else 2) s := by
  simp only [skipIf, h]

/-- Other bytes at pc + 2 and pc + 3 leave the word at pc as it was. -/
theorem wordAtPc_setMem {m : Memory}
    (h : ∀ a, a ≠ s.ms.pc.toNat + 2 → a ≠ s.ms.pc.toNat + 3 → m.byteAt a = s.ms.mem.byteAt a) :
    (s.setMem m).wordAtPc = s.wordAtPc := by
  simp only [State.wordAtPc, State.setMem_pc, State.setMem_mem]
  rw [h _ (by omega) (by omega), h _ (by omega) (by omega)]

/-- Each of the six skips is `skipIf` of a condition that no byte of memory enters. -/
theorem exec_skip_setMem {i : Instr} {x y : Reg} {kk : Byte} (m : Memory)
    (h : i ∈ [.seImm x kk, .sneImm x kk, .seReg x y, .sneReg x y, .skp x, .sknp x]) :
    ∃ c : Bool, exec i s = skipIf c s ∧ exec i (s.setMem m) = skipIf c (s.setMem m) := by
  simp only [List.mem_cons, List.not_mem_nil, or_false] at h
  obtain rfl | rfl | rfl | rfl | rfl | rfl := h
  all_goals exact ⟨_, rfl, rfl⟩

theorem setPc_setMem_next {a : Nat} (m : Memory) (h : setPc a s = .next t) :
    setPc a (s.setMem m) = .next (t.setMem m) := by
  obtain ⟨hpc, rfl⟩ := setPc_next h
  exact setPc_legal _ hpc

theorem setPc_setMem_fault {a : Nat} {e : Fault} (m : Memory) (h : setPc a s = .fault e) :
    setPc a (s.setMem m) = .fault e := by
  obtain ⟨hpc, rfl⟩ := setPc_fault h
  exact setPc_illegal _ hpc

end

/-! ### The statements of the family -/

/-- Settles O17: the completed CALL has filled slot sp with pc + 2, a legal address, and that is the slot RET pops. -/
theorem retAfterCallReturnsToTheNextInstruction : Obligations.RetAfterCallReturnsToTheNextInstruction := by
  intro s t nnn h
  obtain ⟨k, hk, hret, rfl⟩ := exec_call_next h
  refine ⟨?returns, fun j hj => ?otherSlots⟩
  case returns =>
    have hslot : (s.ms.stack.set k.val (s.ms.pc + 2#16))[k] = s.ms.pc + 2#16 := Vector.getElem_set_self k.isLt
    have hsp : s.ms.sp = k.castSucc := Fin.ext hk
    rw [exec_ret_at (k := k) rfl]
    simp only [State.withPc_stack, State.setStack_stack, hslot]
    rw [setPc_toNat_legal _ hret.add_two, ← hsp]
    rfl
  case otherSlots => exact Vector.getElem_set_ne k.isLt j.isLt fun hkj => hj (hkj.symm.trans hk.symm)

/-- Settles O21: either memory gives the fetch the same word, whose execution is a pc write that memory does not
enter. -/
theorem skippedWordIsNeverRead : Obligations.SkippedWordIsNeverRead := by
  intro s m i hpc hm hdec ⟨x, y, kk, hskip⟩
  obtain ⟨c, hexec, hexec'⟩ := exec_skip_setMem (s := s) m hskip
  have hdec' : decode (s.setMem m).cfg.sysMode (s.setMem m).wordAtPc = .ok i := by rwa [wordAtPc_setMem hm]
  have hstep : step s = skipIf c s := (step_of_decode_ok hpc hdec).trans hexec
  have hstep' : step (s.setMem m) = skipIf c (s.setMem m) :=
    (step_of_decode_ok (s := s.setMem m) hpc hdec').trans hexec'
  rw [hstep, hstep']
  exact ⟨fun _ => setPc_setMem_next m, fun _ => setPc_setMem_fault m⟩

/-- Settles O48: the invariant says that the slot RET pops holds a legal address, and a completed RET keeps it. -/
theorem retNeverFaultsOnAPushedAddress : Obligations.RetNeverFaultsOnAPushedAddress := by
  intro s hinv hsp
  obtain ⟨k, hk⟩ : ∃ k : Fin 16, s.ms.sp.val = k.val + 1 := ⟨⟨s.ms.sp.val - 1, by omega⟩, by simp only; omega⟩
  have hpc : PcLegal s.ms.stack[k].toNat := hinv.live.stackLegal k (by omega)
  have hret := exec_ret_legal hk hpc
  exact ⟨_, hret, hk.symm, (exec_next hret).keeps_inv hinv⟩

/-- Settles O13: under nop SYS is an advance alone, and under unknown its words are Unknown. -/
theorem sysOnlyAdvances : Obligations.SysOnlyAdvances := by
  intro s nnn
  refine ⟨fun hcls hret => ?decodes, fun hmode hpc => ?advances, fun hmode hpc => ?illegal,
    fun w => decode_unknown_ne_sys w nnn⟩
  case decodes =>
    exact decode_encode_sys (Bool.and_eq_true_iff.mpr ⟨bne_iff_ne.mpr hcls, bne_iff_ne.mpr hret⟩)
  case advances =>
    rw [exec_sys_nop nnn hmode, advance_legal hpc]
    rfl
  case illegal => rw [exec_sys_nop nnn hmode, advance_illegal hpc]

/-- Settles O14: RET is a pop and then a pc write of the value popped. -/
theorem retPopsTheReturnAddress : Obligations.RetPopsTheReturnAddress := by
  refine ⟨decode_encode (i := .ret) rfl nofun, fun s => ⟨fun hempty => ?empty, fun k hk => ?pops⟩⟩
  case empty => rw [exec, execRet, State.pop_empty hempty, attempt_error]
  case pops =>
    refine ⟨exec_ret_legal hk, fun hpc => ?_⟩
    rw [exec_ret_at hk, setPc_illegal _ hpc]

/-- Settles O15: JP is the pc write of its operand. -/
theorem jpSetsPcToItsOperand : Obligations.JpSetsPcToItsOperand := by
  intro s nnn
  exact ⟨decode_encode (i := .jp nnn) rfl nofun, setPc_addr_legal s, setPc_illegal s⟩

/-- Settles O16, by the three checks of CALL in their order: the stack, the return address, the target. -/
theorem callPushesTheNextAddressAndJumps : Obligations.CallPushesTheNextAddressAndJumps := by
  intro s nnn
  refine ⟨decode_encode (i := .call nnn) rfl nofun, fun hfull => ?full, fun hroom hret => ?badReturn,
    fun hroom hret htarget => ?badTarget, fun k hk hret htarget => ?jumps⟩
  case full => rw [exec, execCall, State.push_full _ hfull, attempt_error]
  case badReturn =>
    obtain ⟨k, hk⟩ := exists_depth_of_ne_full hroom
    rw [exec_call_at nnn hk, checkPc_error hret, attempt_error]
  case badTarget =>
    obtain ⟨k, hk⟩ := exists_depth_of_ne_full hroom
    rw [exec_call_legal_return nnn hk hret, setPc_illegal _ htarget]
  case jumps =>
    rw [exec_call_legal_return nnn hk hret, setPc_addr_legal _ htarget]
    rfl

/-- Settles O18: the offset register of the model is the one of R104, and the pc write takes the unbounded sum. -/
theorem jpV0JumpsToTheUnboundedSum : Obligations.JpV0JumpsToTheUnboundedSum := by
  intro s nnn r hr
  obtain rfl : r = jumpOffsetRegister s.cfg nnn := Fin.ext (hr.trans (val_jumpOffsetRegister s.cfg nnn).symm)
  exact ⟨decode_encode (i := .jpV0 nnn) rfl nofun, setPc_legal s, setPc_illegal s⟩

/-- Settles O19: each of the four is a pc write at the distance its condition selects. -/
theorem registerSkipsMoveByFourOrTwo : Obligations.RegisterSkipsMoveByFourOrTwo := by
  intro s x y kk
  refine ⟨fun mode => ⟨?_, ?_, ?_, ?_⟩, fun i d hskip => ?moves⟩
  · exact decode_encode (i := .seImm x kk) rfl nofun mode
  · exact decode_encode (i := .sneImm x kk) rfl nofun mode
  · exact decode_encode (i := .seReg x y) rfl nofun mode
  · exact decode_encode (i := .sneReg x y) rfl nofun mode
  case moves =>
    have hexec : exec i s = setPc (s.ms.pc.toNat + d) s := by
      obtain ⟨rfl, rfl⟩ | ⟨rfl, rfl⟩ | ⟨rfl, rfl⟩ | ⟨rfl, rfl⟩ := hskip
      · exact skipIf_of_iff s beq_iff_eq
      · exact skipIf_of_iff s bne_iff_ne
      · exact skipIf_of_iff s beq_iff_eq
      · exact skipIf_of_iff s bne_iff_ne
    rw [hexec]
    exact ⟨setPc_displaced_legal, setPc_illegal s⟩

end Sys2Proof.Machine
end

section
/-! Proofs of the family 42_alu.md: register loads and the immediate add (R130 to R132), logic (R133 to R135), add
and subtract (R136, R137, R139), shifts (R138, R140) and RND (R141). Each instruction is an advance of a staged
register write. -/

namespace Sys2Proof.Machine

/-! ### A staged register write, advanced (42_alu.md R143, 30_encoding.md R83) -/

section
variable {s : State} {x : Reg}

theorem advance_setV_legal {b : Byte} (hpc : PcLegal (s.ms.pc.toNat + 2)) :
    advance (s.setV x b) = .next (s.completedWith { s.ms with v := s.ms.v.set x b }) :=
  advance_legal (s := s.setV x b) hpc

theorem advance_setV_illegal {b : Byte} (hpc : ¬PcLegal (s.ms.pc.toNat + 2)) :
    advance (s.setV x b) = .fault (.invalidMemoryAccess (s.ms.pc.toNat + 2)) :=
  advance_illegal (s := s.setV x b) hpc

/-- `r'` and `f` are the result and the flag byte in closed form. -/
theorem advance_setResultAndFlag_legal {r r' f : Byte} {c : Bool} (hr : r = r') (hf : flagByte c = f)
    (hpc : PcLegal (s.ms.pc.toNat + 2)) :
    advance (s.setResultAndFlag x r c) =
      .next (s.completedWith { s.ms with v := (s.ms.v.set x r').set 15 f }) := by
  subst hr hf
  exact advance_legal (s := s.setResultAndFlag x r c) hpc

theorem advance_setResultAndFlag_illegal {r : Byte} {c : Bool} (hpc : ¬PcLegal (s.ms.pc.toNat + 2)) :
    advance (s.setResultAndFlag x r c) = .fault (.invalidMemoryAccess (s.ms.pc.toNat + 2)) :=
  advance_illegal (s := s.setResultAndFlag x r c) hpc

/-! ### Logic results under either LOGIC_VF_RESET (R133) -/

theorem setLogicResult_of_keep (r : Byte) (h : s.cfg.logicVfReset = false) :
    s.setLogicResult x r = s.setV x r := by
  simp [State.setLogicResult, h]

/-- A cleared VF is a flag of 0. -/
theorem setLogicResult_of_reset (r : Byte) (h : s.cfg.logicVfReset = true) :
    s.setLogicResult x r = s.setResultAndFlag x r false := by
  simp [State.setLogicResult, State.setResultAndFlag, flagByte, h]

theorem advance_setLogicResult_illegal {r : Byte} (hpc : ¬PcLegal (s.ms.pc.toNat + 2)) :
    advance (s.setLogicResult x r) = .fault (.invalidMemoryAccess (s.ms.pc.toNat + 2)) := by
  cases hcfg : s.cfg.logicVfReset with
  | false => rw [setLogicResult_of_keep r hcfg, advance_setV_illegal hpc]
  | true => rw [setLogicResult_of_reset r hcfg, advance_setResultAndFlag_illegal hpc]

/-! ### The shift source and RND (R138, R141) -/

theorem shiftOperand_eq_ite (x y : Reg) (s : State) :
    shiftOperand x y s = if s.cfg.shiftSrc = .vx then s.ms.v[x] else s.ms.v[y] := by
  cases hcfg : s.cfg.shiftSrc with
  | vx => exact shiftOperand_vx hcfg x y
  | vy => simp [shiftOperand, hcfg, State.getV]

theorem exec_rnd_legal {kk b : Byte} (hb : Config.rand8 s.draws &&& kk = b) (hpc : PcLegal (s.ms.pc.toNat + 2)) :
    exec (.rnd x kk) s =
      .next { s.completedWith { s.ms with v := s.ms.v.set x b } with draws := s.draws + 1 } := by
  subst hb
  exact advance_legal (s := (s.setV x (nextDraw s &&& kk)).withDraw) hpc

theorem exec_rnd_illegal {kk : Byte} (hpc : ¬PcLegal (s.ms.pc.toNat + 2)) :
    exec (.rnd x kk) s = .fault (.invalidMemoryAccess (s.ms.pc.toNat + 2)) :=
  advance_illegal (s := (s.setV x (nextDraw s &&& kk)).withDraw) hpc

end

/-! ### The statements of the family -/

/-- Settles O22: each of the three is an advance of one register write. -/
theorem loadsAndAddImmediateWriteOnlyVx : Obligations.LoadsAndAddImmediateWriteOnlyVx := by
  intro s x y kk
  refine ⟨fun mode => ⟨?_, ?_, ?_⟩, fun hpc => ⟨?_, ?_, ?_⟩, fun hpc i hi => ?illegal⟩
  · exact decode_encode (i := .ldImm x kk) rfl nofun mode
  · exact decode_encode (i := .addImm x kk) rfl nofun mode
  · exact decode_encode (i := .ldReg x y) rfl nofun mode
  · exact advance_setV_legal hpc
  · exact advance_setV_legal hpc
  · exact advance_setV_legal hpc
  case illegal =>
    simp only [List.mem_cons, List.not_mem_nil, or_false] at hi
    obtain rfl | rfl | rfl := hi
    all_goals exact advance_setV_illegal hpc

/-- Settles O23: each of the three is an advance of a logic result, which is a lone register write or one with a
flag of 0. -/
theorem logicWritesVxAndMayResetVF : Obligations.LogicWritesVxAndMayResetVF := by
  intro s x y
  refine ⟨fun mode => ⟨?_, ?_, ?_⟩, fun i r hi => ?logic⟩
  · exact decode_encode (i := .orReg x y) rfl nofun mode
  · exact decode_encode (i := .andReg x y) rfl nofun mode
  · exact decode_encode (i := .xorReg x y) rfl nofun mode
  case logic =>
    have hexec : exec i s = advance (s.setLogicResult x r) := by
      obtain ⟨rfl, rfl⟩ | ⟨rfl, rfl⟩ | ⟨rfl, rfl⟩ := hi
      all_goals rfl
    rw [hexec]
    refine ⟨fun hpc hcfg => ?keep, fun hpc hcfg => ?reset, advance_setLogicResult_illegal⟩
    case keep => rw [setLogicResult_of_keep r hcfg, advance_setV_legal hpc]
    case reset =>
      rw [setLogicResult_of_reset r hcfg]
      exact advance_setResultAndFlag_legal rfl rfl hpc

/-- Settles O24: the staged sum and carry, in closed form. -/
theorem addWritesTheSumThenTheCarry : Obligations.AddWritesTheSumThenTheCarry := by
  intro s x y
  exact ⟨decode_encode (i := .addReg x y) rfl nofun,
    advance_setResultAndFlag_legal (addByte_eq _ _) (flagByte_carry _ _), advance_setResultAndFlag_illegal⟩

/-- Settles O25: the staged difference and no-borrow flag, in closed form, with the operands of SUBN swapped. -/
theorem subtractionsWriteTheDifferenceThenNoBorrow : Obligations.SubtractionsWriteTheDifferenceThenNoBorrow := by
  intro s x y
  refine ⟨fun mode => ⟨?_, ?_⟩, fun hpc => ⟨?_, ?_⟩, fun hpc => ⟨?_, ?_⟩⟩
  · exact decode_encode (i := .sub x y) rfl nofun mode
  · exact decode_encode (i := .subn x y) rfl nofun mode
  · exact advance_setResultAndFlag_legal (subByte_eq _ _) (flagByte_noBorrow _ _) hpc
  · exact advance_setResultAndFlag_legal (subByte_eq _ _) (flagByte_noBorrow _ _) hpc
  · exact advance_setResultAndFlag_illegal hpc
  · exact advance_setResultAndFlag_illegal hpc

/-- Settles O26: `src` is the model's shift source, and the staged result and flag are its closed forms. -/
theorem shiftsWriteTheResultThenTheBitShiftedOut : Obligations.ShiftsWriteTheResultThenTheBitShiftedOut := by
  intro s x y src hsrc
  obtain rfl : src = shiftOperand x y s := hsrc.trans (shiftOperand_eq_ite x y s).symm
  refine ⟨fun mode => ⟨?_, ?_⟩, fun hpc => ⟨?_, ?_⟩, fun hpc => ⟨?_, ?_⟩⟩
  · exact decode_encode (i := .shr x y) rfl nofun mode
  · exact decode_encode (i := .shl x y) rfl nofun mode
  · exact advance_setResultAndFlag_legal (shrByte_eq _) (flagByte_shiftedOutRight _) hpc
  · exact advance_setResultAndFlag_legal (shlByte_eq _) (flagByte_shiftedOutLeft _) hpc
  · exact advance_setResultAndFlag_illegal hpc
  · exact advance_setResultAndFlag_illegal hpc

/-- Settles O27: the draw is masked by kk, of which 0x00 keeps no bit and 0xFF every bit. -/
theorem rndMasksAFreshDraw : Obligations.RndMasksAFreshDraw := by
  rintro s x kk _ rfl
  exact ⟨decode_encode (i := .rnd x kk) rfl nofun, exec_rnd_legal rfl, exec_rnd_legal BitVec.and_zero,
    exec_rnd_legal BitVec.and_allOnes, exec_rnd_illegal⟩

end Sys2Proof.Machine
end

section
/-! Proofs of the family 43_index_memory.md: the writes of I (R160 to R162), the three digits of FX33 (R163), and
the register blocks of FX55 and FX65 with the index after them (R164 to R166). Each instruction is an advance of
a staged write, once its bounds checks have passed. -/

namespace Sys2Proof.Machine

/-! ### A staged write of I or of Mem, advanced (30_encoding.md R83) -/

section
variable {s : State} {w : Word} {m : Memory}

theorem advance_setI_legal (hpc : PcLegal (s.ms.pc.toNat + 2)) :
    advance (s.setI w) = .next (s.completedWith { s.ms with i := w }) :=
  advance_legal (s := s.setI w) hpc

theorem advance_setI_illegal (hpc : ¬PcLegal (s.ms.pc.toNat + 2)) :
    advance (s.setI w) = .fault (.invalidMemoryAccess (s.ms.pc.toNat + 2)) :=
  advance_illegal (s := s.setI w) hpc

theorem advance_setMem_legal (hpc : PcLegal (s.ms.pc.toNat + 2)) :
    advance (s.setMem m) = .next (s.completedWith { s.ms with mem := m }) :=
  advance_legal (s := s.setMem m) hpc

theorem advance_setMem_illegal (hpc : ¬PcLegal (s.ms.pc.toNat + 2)) :
    advance (s.setMem m) = .fault (.invalidMemoryAccess (s.ms.pc.toNat + 2)) :=
  advance_illegal (s := s.setMem m) hpc

end

/-! ### The index register (R160 to R162) -/

section
variable {s : State} {x : Reg}

theorem exec_addI_above (h : s.ms.i.toNat + s.ms.v[x].toNat > 0xFFF) :
    exec (.addI x) s = .fault (.invalidMemoryAccess (s.ms.i.toNat + s.ms.v[x].toNat)) :=
  if_pos h

theorem exec_addI_within (h : s.ms.i.toNat + s.ms.v[x].toNat ≤ 0xFFF) :
    exec (.addI x) s = advance (s.setI (s.ms.i + s.ms.v[x].setWidth 16)) := by
  rw [← BitVec.ofNat_toNat, ← ofNat_toNat_add]
  exact if_neg (Nat.not_lt_of_le h)

/-- The mask of R162 is the low nibble. -/
theorem fontAddress_eq (cfg : Config) (b : Byte) :
    fontAddress cfg b = cfg.fontBase.toNat + 5 * (b.toNat % 16) := by
  have hmask : (b &&& 0x0F#8).toNat = b.toNat % 16 := by
    rw [BitVec.toNat_and]
    exact Nat.and_two_pow_sub_one_eq_mod b.toNat 4
  rw [fontAddress, hmask]

theorem exec_ldF (x : Reg) (s : State) :
    exec (.ldF x) s =
      advance (s.setI (BitVec.ofNat 16 (s.cfg.fontBase.toNat + 5 * (s.ms.v[x].toNat % 16)))) := by
  rw [← fontAddress_eq]
  rfl

end

/-! ### One byte after a block of bytes was stored (20_memory.md R56, R57) -/

section
variable {m : Memory} {a : Nat} {bs : List Byte}

theorem Memory.byteAt_putBytes_within {k : Nat} (hwf : m.wf = true) (hfit : a + bs.length ≤ 0x1000)
    (hk : k < bs.length) : (Memory.putBytes a bs m).byteAt (a + k) = bs.getD k Memory.unlisted := by
  rw [Memory.byteAt_putBytes hwf hfit, if_pos (by omega), Nat.add_sub_cancel_left]

theorem Memory.byteAt_putBytes_outside {a' : Nat} (hwf : m.wf = true) (hfit : a + bs.length ≤ 0x1000)
    (ha : a' < a ∨ a + bs.length ≤ a') : (Memory.putBytes a bs m).byteAt a' = m.byteAt a' := by
  rw [Memory.byteAt_putBytes hwf hfit, if_neg (by omega)]

end

/-! ### The index after a block (R166) -/

section
variable {s : State} {x : Reg} {w : Word}

/-- `w` is the I that the block instruction FX55 or FX65 leaves, block and new I both within memory. -/
def IndexBecomes (x : Reg) (s : State) (w : Word) : Prop :=
  (s.cfg.ldstIInc = .none ∧ s.ms.i.toNat + x.val ≤ 0xFFF ∧ w = s.ms.i) ∨
  (s.cfg.ldstIInc = .xPlus1 ∧ s.ms.i.toNat + x.val + 1 ≤ 0xFFF ∧ w = BitVec.ofNat 16 (s.ms.i.toNat + x.val + 1))

theorem IndexBecomes.block_fits (h : IndexBecomes x s w) : s.ms.i.toNat + x.val ≤ 0xFFF := by
  obtain ⟨-, hfit, -⟩ | ⟨-, hfit, -⟩ := h
  · exact hfit
  · exact Nat.le_of_succ_le hfit

theorem IndexBecomes.indexAfterBlock_eq (h : IndexBecomes x s w) : indexAfterBlock x s = .ok (s.setI w) := by
  obtain ⟨hcfg, -, rfl⟩ | ⟨hcfg, hfit, rfl⟩ := h
  · simp only [indexAfterBlock, hcfg]
    rfl
  · simp only [indexAfterBlock, hcfg]
    exact if_neg (Nat.not_lt_of_le hfit)

theorem IndexBecomes.attempt_eq (h : IndexBecomes x s w) :
    attempt (indexAfterBlock x s) advance = advance (s.setI w) := by
  rw [h.indexAfterBlock_eq, attempt_ok]

theorem attempt_indexAfterBlock_fault (hcfg : s.cfg.ldstIInc = .xPlus1) (h : 0xFFF < s.ms.i.toNat + x.val + 1) :
    attempt (indexAfterBlock x s) advance = .fault (.invalidMemoryAccess (s.ms.i.toNat + x.val + 1)) := by
  simp only [indexAfterBlock, hcfg]
  rw [if_pos h, attempt_error]

/-! ### The three block instructions within memory (R163 to R165) -/

theorem exec_ldB_within (h : s.ms.i.toNat + 2 ≤ 0xFFF) :
    exec (.ldB x) s = advance (s.setMem (Memory.putBytes s.ms.i.toNat (bcdDigits s.ms.v[x]) s.ms.mem)) := by
  have hfit : s.ms.i.toNat + (bcdDigits (s.getV x)).length ≤ 0x1000 := by rw [length_bcdDigits]; omega
  rw [exec, execLdB, writeBytes_eq_ok hfit, attempt_ok]
  rfl

theorem exec_ldMemVx_within (h : s.ms.i.toNat + x.val ≤ 0xFFF) :
    exec (.ldMemVx x) s =
      attempt (indexAfterBlock x (s.setMem (Memory.putBytes s.ms.i.toNat (registerBlock x s.ms.v) s.ms.mem)))
        advance := by
  have hfit : s.ms.i.toNat + (registerBlock x s.ms.v).length ≤ 0x1000 := by rw [length_registerBlock]; omega
  rw [exec, execLdMemVx, writeBytes_eq_ok hfit, attempt_ok]

theorem exec_ldVxMem_within (h : s.ms.i.toNat + x.val ≤ 0xFFF) :
    exec (.ldVxMem x) s =
      attempt (indexAfterBlock x
        (s.setVs (loadBlock 0 ((List.range' s.ms.i.toNat (x.val + 1)).map s.ms.mem.byteAt) s.ms.v))) advance := by
  have hfit : s.ms.i.toNat + (x.val + 1) ≤ 0x1000 := by omega
  rw [exec, execLdVxMem, readBytes_eq_ok hfit, attempt_ok]

/-- A register after FX65 loaded its block: the byte of memory up to V[x], its old value above. -/
theorem getElem_loadBlock_bytesFrom (m : Memory) (a : Nat) (v : Vector Byte 16) (x k : Reg) :
    (loadBlock 0 ((List.range' a (x.val + 1)).map m.byteAt) v)[k] =
      if k.val ≤ x.val then m.byteAt (a + k.val) else v[k] := by
  rw [Fin.getElem_fin, getElem_loadBlock k.isLt]
  by_cases hk : k.val ≤ x.val
  · have hlt : k.val < x.val + 1 := by omega
    simp [hk, hlt, List.getD]
  · have hge : ¬k.val < x.val + 1 := by omega
    simp [hk, hge]

end

/-! ### The statements of the family -/

/-- Settles O32: the block access fails as R57 says, or the three digits are staged and pc advances. -/
theorem ldBStoresThreeDigits : Obligations.LdBStoresThreeDigits := by
  intro s x hwf hi
  refine ⟨decode_encode (i := .ldB x) rfl nofun, fun hout => ?outside, fun hfit hpc => ?illegal,
    fun hfit hpc => ?stores⟩
  case outside =>
    obtain ⟨hfault, -, -, hmax⟩ := blockAccessesReportTheFirstBadAddress s x 0 0
    rw [hfault hout, hmax hi]
  case illegal => rw [exec_ldB_within hfit, advance_setMem_illegal hpc]
  case stores =>
    have hlen : s.ms.i.toNat + (bcdDigits s.ms.v[x]).length ≤ 0x1000 := by rw [length_bcdDigits]; omega
    refine ⟨_, (exec_ldB_within hfit).trans (advance_setMem_legal hpc), ?_, ?_, ?_, fun a ha => ?_⟩
    · exact Memory.byteAt_putBytes_within (k := 0) hwf hlen (by simp)
    · exact Memory.byteAt_putBytes_within (k := 1) hwf hlen (by simp)
    · exact Memory.byteAt_putBytes_within (k := 2) hwf hlen (by simp)
    · exact Memory.byteAt_putBytes_outside hwf hlen (by rw [length_bcdDigits]; omega)

/-- Settles O33: the block access and the new I are checked in this order, then the block is staged and pc
advances. -/
theorem ldMemVxStoresTheRegisterBlock : Obligations.LdMemVxStoresTheRegisterBlock := by
  intro s x hwf hi
  refine ⟨decode_encode (i := .ldMemVx x) rfl nofun, fun hout => ?outside, fun hfit hcfg hout => ?indexOutside,
    fun after hafter => ?within⟩
  case outside =>
    obtain ⟨-, hfault, -, hmax⟩ := blockAccessesReportTheFirstBadAddress s x 0 0
    rw [(hfault hout).left, hmax hi]
  case indexOutside =>
    exact (exec_ldMemVx_within hfit).trans (attempt_indexAfterBlock_fault (s := s.setMem _) hcfg hout)
  case within =>
    have hfit := IndexBecomes.block_fits hafter
    have hexec := (exec_ldMemVx_within hfit).trans (IndexBecomes.attempt_eq (s := s.setMem _) hafter)
    have hlen : s.ms.i.toNat + (registerBlock x s.ms.v).length ≤ 0x1000 := by rw [length_registerBlock]; omega
    refine ⟨fun hpc => hexec.trans (advance_setI_illegal hpc), fun hpc =>
      ⟨_, hexec.trans (advance_setI_legal hpc), fun k hk => ?stored, fun a ha => ?kept⟩⟩
    case stored =>
      have hkth : k.val < (registerBlock x s.ms.v).length := by rw [length_registerBlock]; omega
      exact (Memory.byteAt_putBytes_within hwf hlen hkth).trans (getD_registerBlock hk _)
    case kept => exact Memory.byteAt_putBytes_outside hwf hlen (by rw [length_registerBlock]; omega)

/-- Settles O34: the block access and the new I are checked in this order, then the registers are staged and pc
advances. -/
theorem ldVxMemLoadsTheRegisterBlock : Obligations.LdVxMemLoadsTheRegisterBlock := by
  intro s x hi
  refine ⟨decode_encode (i := .ldVxMem x) rfl nofun, fun hout => ?outside, fun hfit hcfg hout => ?indexOutside,
    fun after hafter => ?within⟩
  case outside =>
    obtain ⟨-, hfault, -, hmax⟩ := blockAccessesReportTheFirstBadAddress s x 0 0
    rw [(hfault hout).right, hmax hi]
  case indexOutside =>
    exact (exec_ldVxMem_within hfit).trans (attempt_indexAfterBlock_fault (s := s.setVs _) hcfg hout)
  case within =>
    have hfit := IndexBecomes.block_fits hafter
    have hexec := (exec_ldVxMem_within hfit).trans (IndexBecomes.attempt_eq (s := s.setVs _) hafter)
    exact ⟨fun hpc => hexec.trans (advance_setI_illegal hpc), fun hpc =>
      ⟨_, hexec.trans (advance_setI_legal hpc), getElem_loadBlock_bytesFrom s.ms.mem s.ms.i.toNat s.ms.v x⟩⟩

/-- Settles O29: an advance of a write of I, unchecked. -/
theorem ldIWritesTheAddress : Obligations.LdIWritesTheAddress := by
  intro s nnn
  exact ⟨decode_encode (i := .ldI nnn) rfl nofun, advance_setI_legal, advance_setI_illegal⟩

/-- Settles O30: the check of the unbounded sum, then an advance of a write of I. -/
theorem addIRaisesAboveTheAddressSpace : Obligations.AddIRaisesAboveTheAddressSpace := by
  intro s x
  refine ⟨decode_encode (i := .addI x) rfl nofun, exec_addI_above, fun hsum hpc => ?_, fun hsum hpc => ?_⟩
  · rw [exec_addI_within hsum, advance_setI_legal hpc]
  · rw [exec_addI_within hsum, advance_setI_illegal hpc]

/-- Settles O31: an advance of a write of the glyph's address, which a legal FONT_BASE keeps below 0x200. -/
theorem ldFPointsAtTheGlyph : Obligations.LdFPointsAtTheGlyph := by
  intro s x
  refine ⟨decode_encode (i := .ldF x) rfl nofun, fun hpc => ?_, fun hpc => ?_, fun hcfg => ?_⟩
  · rw [exec_ldF, advance_setI_legal hpc]
  · rw [exec_ldF, advance_setI_illegal hpc]
  · rw [← fontAddress_eq]
    exact Nat.lt_of_le_of_lt (fontAddress_le hcfg _) (by decide)

end Sys2Proof.Machine
end

section
/-! Proofs of the family 44_timers_input.md: the key skips (R180, R181, R186), the timer reads and writes (R182,
R184, R185), and the wait for a key (R183). -/

namespace Sys2Proof.Machine

/-! ### A staged timer write, advanced (30_encoding.md R83) -/

section
variable {s : State} {x : Reg} {k : KeyIndex} {b : Byte}

theorem advance_setDt_legal (hpc : PcLegal (s.ms.pc.toNat + 2)) :
    advance (s.setDt b) = .next (s.completedWith { s.ms with dt := b }) :=
  advance_legal (s := s.setDt b) hpc

theorem advance_setDt_illegal (hpc : ¬PcLegal (s.ms.pc.toNat + 2)) :
    advance (s.setDt b) = .fault (.invalidMemoryAccess (s.ms.pc.toNat + 2)) :=
  advance_illegal (s := s.setDt b) hpc

theorem advance_setSt_legal (hpc : PcLegal (s.ms.pc.toNat + 2)) :
    advance (s.setSt b) = .next (s.completedWith { s.ms with st := b }) :=
  advance_legal (s := s.setSt b) hpc

theorem advance_setSt_illegal (hpc : ¬PcLegal (s.ms.pc.toNat + 2)) :
    advance (s.setSt b) = .fault (.invalidMemoryAccess (s.ms.pc.toNat + 2)) :=
  advance_illegal (s := s.setSt b) hpc

/-! ### The key a register names (R186) -/

theorem val_keyOperand (b : Byte) : (keyOperand b).val = b.toNat % 16 := by
  have hmask : (b &&& 0x0F#8).toNat = b.toNat % 16 := by
    rw [BitVec.toNat_and]
    exact Nat.and_two_pow_sub_one_eq_mod b.toNat 4
  rw [keyOperand, hmask, Fin.val_ofNat, Nat.mod_mod]

/-! ### The wait for a key (R183) -/

theorem lowestKey_eq_some (hk : s.isKeyPressed k = true) (hbelow : ∀ j : KeyIndex, j < k → s.isKeyPressed j = false) :
    lowestKey s = some k := by
  cases hlow : lowestKey s with
  | none => exact absurd (lowestKey_none.mp hlow k) (by simp [hk])
  | some j =>
    obtain ⟨hj, hbelow'⟩ := lowestKey_some hlow
    obtain hjk | rfl | hkj := lt_trichotomy j k
    · exact absurd (hbelow j hjk) (by simp [hj])
    · rfl
    · exact absurd (hbelow' k hkj) (by simp [hk])

theorem exec_ldVxK_waits (x : Reg) (h : ∀ k : KeyIndex, s.isKeyPressed k = false) : exec (.ldVxK x) s = .next s := by
  rw [exec, execLdVxK, lowestKey_none.mpr h]

theorem exec_ldVxK_takes (x : Reg) (h : lowestKey s = some k) :
    exec (.ldVxK x) s = advance (s.setV x (BitVec.ofNat 8 k.val)) := by
  rw [exec, execLdVxK, h]

end

/-! ### The statements of the family -/

/-- Settles O20: each of the two is a pc write at the distance that the key of R186 selects. -/
theorem keySkipsTestTheKeyOfTheLowNibble : Obligations.KeySkipsTestTheKeyOfTheLowNibble := by
  intro s x k hk
  obtain rfl : k = keyOperand (s.getV x) := Fin.ext (hk.trans (val_keyOperand _).symm)
  refine ⟨fun mode => ⟨?_, ?_⟩, fun i d hskip => ?moves⟩
  · exact decode_encode (i := .skp x) rfl nofun mode
  · exact decode_encode (i := .sknp x) rfl nofun mode
  case moves =>
    have hexec : exec i s = setPc (s.ms.pc.toNat + d) s := by
      obtain ⟨rfl, rfl⟩ | ⟨rfl, rfl⟩ := hskip
      · exact skipIf_of_iff s Iff.rfl
      · exact skipIf_of_iff s (iff_of_eq (Bool.not_eq_true' _))
    rw [hexec]
    exact ⟨setPc_displaced_legal, setPc_illegal s⟩

/-- Settles O35: each of the three is an advance of one write, to V[x], DT or ST. -/
theorem timerInstructionsMoveTheTimers : Obligations.TimerInstructionsMoveTheTimers := by
  intro s x
  refine ⟨fun mode => ⟨?_, ?_, ?_⟩, fun hpc => ⟨?_, ?_, ?_⟩, fun hpc i hi => ?illegal⟩
  · exact decode_encode (i := .ldVxDt x) rfl nofun mode
  · exact decode_encode (i := .ldDtVx x) rfl nofun mode
  · exact decode_encode (i := .ldStVx x) rfl nofun mode
  · exact advance_setV_legal hpc
  · exact advance_setDt_legal hpc
  · exact advance_setSt_legal hpc
  case illegal =>
    simp only [List.mem_cons, List.not_mem_nil, or_false] at hi
    obtain rfl | rfl | rfl := hi
    · exact advance_setV_illegal hpc
    · exact advance_setDt_illegal hpc
    · exact advance_setSt_illegal hpc

/-- Settles O36: the model's key search finds no key, or the smallest one, which an advance writes to V[x]. -/
theorem ldVxKWaitsForTheLowestKey : Obligations.LdVxKWaitsForTheLowestKey := by
  intro s x
  refine ⟨decode_encode (i := .ldVxK x) rfl nofun, exec_ldVxK_waits x, fun k hk hbelow => ?takes⟩
  case takes =>
    rw [exec_ldVxK_takes x (lowestKey_eq_some hk hbelow)]
    exact ⟨advance_setV_legal, advance_setV_illegal⟩

end Sys2Proof.Machine
end

section
/-! Proofs of the family 45_display.md: CLS (R201), the pixels and the flag of DRW (R203 to R205), redrawing the
same sprite (R203, R204), and the operations that only observe the block or set its speed (R206, R237, R264). -/

namespace Sys2Proof.Machine

/-! ### CLS (R201) -/

section
variable {s : State}

theorem exec_cls_legal (hpc : PcLegal (s.ms.pc.toNat + 2)) :
    exec .cls s = .next (s.completedWith { s.ms with disp := Display.blank }) :=
  advance_legal (s := s.setDisp Display.blank) hpc

theorem exec_cls_illegal (hpc : ¬PcLegal (s.ms.pc.toNat + 2)) :
    exec .cls s = .fault (.invalidMemoryAccess (s.ms.pc.toNat + 2)) :=
  advance_illegal (s := s.setDisp Display.blank) hpc

end

/-! ### The canvas of DRW: its pixels and its flag as conditions on the sprite (R203, R204) -/

section
variable {s : State} {x y : Reg} {n : Fin 16} {r : Fin 32} {c : Fin 64}

/-- The bytes of the sprite that `DRW Vx, Vy, n` reads, top row first (R203). -/
def spriteRows (s : State) (n : Fin 16) : List Byte := (List.range' s.ms.i.toNat n.val).map s.ms.mem.byteAt

/-- The display and the collision flag that `DRW Vx, Vy, n` leaves when its sprite lies in memory (R203). -/
def drawnCanvas (s : State) (x y : Reg) (n : Fin 16) : Canvas :=
  drawSprite ((s.getV x).toNat % 64) ((s.getV y).toNat % 32) (spriteRows s n) s.ms.disp

theorem length_spriteRows_le (s : State) (n : Fin 16) : (spriteRows s n).length ≤ 32 := by
  simp only [spriteRows, List.length_map, List.length_range']
  omega

theorem spriteRows_getElem?_eq_some {j : Nat} {row : Byte} :
    (spriteRows s n)[j]? = some row ↔ j < n.val ∧ s.ms.mem.byteAt (s.ms.i.toNat + j) = row := by
  simp [spriteRows, List.getElem?_eq_some_iff]

/-- The pixels that drawing covers are those of the statements. -/
theorem spriteCovers_spriteRows :
    spriteCovers ((s.getV x).toNat % 64) ((s.getV y).toNat % 32) (spriteRows s n) r c ↔ spriteSets s x y n r c := by
  have onPixel (j k : Nat) :
      (r = Fin.ofNat 32 ((s.getV y).toNat % 32 + j) ∧ c = Fin.ofNat 64 ((s.getV x).toNat % 64 + k)) ↔
        (r.val = (s.ms.v[y].toNat % 32 + j) % 32 ∧ c.val = (s.ms.v[x].toNat % 64 + k) % 64) :=
    and_congr Fin.ext_iff Fin.ext_iff
  simp only [spriteCovers, spriteSets, spriteRows_getElem?_eq_some, onPixel]
  constructor
  · rintro ⟨j, k, _, ⟨hj, rfl⟩, hk, hbit, hpixel⟩
    exact ⟨j, k, hj, hk, hbit, hpixel⟩
  · rintro ⟨j, k, hj, hk, hbit, hpixel⟩
    exact ⟨j, k, _, ⟨hj, rfl⟩, hk, hbit, hpixel⟩

theorem pixel_drawnCanvas_of_spriteSets (h : spriteSets s x y n r c) :
    (drawnCanvas s x y n).1.pixel r c = !s.ms.disp.pixel r c :=
  (drawSprite_closed_form _ _ _ _ (length_spriteRows_le s n)).left r c (spriteCovers_spriteRows.mpr h)

theorem pixel_drawnCanvas_of_not_spriteSets (h : ¬spriteSets s x y n r c) :
    (drawnCanvas s x y n).1.pixel r c = s.ms.disp.pixel r c :=
  (drawSprite_closed_form _ _ _ _ (length_spriteRows_le s n)).right.left r c (mt spriteCovers_spriteRows.mp h)

theorem drawnCanvas_hit_iff :
    (drawnCanvas s x y n).2 = true ↔ ∃ r c, spriteSets s x y n r c ∧ s.ms.disp.pixel r c = true :=
  (drawSprite_closed_form _ _ _ _ (length_spriteRows_le s n)).right.right.trans
    (by simp only [spriteCovers_spriteRows])

theorem flagByte_drawnCanvas_of_hit (hset : spriteSets s x y n r c) (hpixel : s.ms.disp.pixel r c = true) :
    flagByte (drawnCanvas s x y n).2 = 1#8 := by
  rw [drawnCanvas_hit_iff.mpr ⟨r, c, hset, hpixel⟩]
  rfl

theorem flagByte_drawnCanvas_of_unset (h : ∀ r c, spriteSets s x y n r c → s.ms.disp.pixel r c = false) :
    flagByte (drawnCanvas s x y n).2 = 0#8 := by
  have hmiss : (drawnCanvas s x y n).2 = false := by
    rw [Bool.eq_false_iff, ne_eq, drawnCanvas_hit_iff]
    rintro ⟨r, c, hset, hpixel⟩
    exact Bool.false_ne_true ((h r c hset).symm.trans hpixel)
  rw [hmiss]
  rfl

/-- Every set bit of the sprite lands on a pixel. -/
theorem exists_spriteSets {j k : Nat} (x y : Reg) (hj : j < n.val) (hk : k < 8)
    (hbit : (s.ms.mem.byteAt (s.ms.i.toNat + j)).getLsbD k = true) : ∃ r c, spriteSets s x y n r c := by
  have hcolumn : 7 - (7 - k) = k := by omega
  exact ⟨Fin.ofNat 32 (s.ms.v[y].toNat % 32 + j), Fin.ofNat 64 (s.ms.v[x].toNat % 64 + (7 - k)),
    j, 7 - k, hj, by omega, by rwa [hcolumn], rfl, rfl⟩

/-! ### The step of DRW (R203, R205) -/

/-- The state that `DRW Vx, Vy, n` leaves when it completes. -/
def State.afterDraw (s : State) (x y : Reg) (n : Fin 16) : State :=
  s.completedWith { s.ms with
    disp := (drawnCanvas s x y n).1, v := s.ms.v.set 15 (flagByte (drawnCanvas s x y n).2) }

theorem exec_drw_within (h : s.ms.i.toNat + n.val ≤ 0x1000) :
    exec (.drw x y n) s =
      advance ((s.setDisp (drawnCanvas s x y n).1).setV VF (flagByte (drawnCanvas s x y n).2)) := by
  rw [exec, execDrw, readBytes_eq_ok h, attempt_ok]
  rfl

theorem exec_drw_legal (h : s.ms.i.toNat + n.val ≤ 0x1000) (hpc : PcLegal (s.ms.pc.toNat + 2)) :
    exec (.drw x y n) s = .next (s.afterDraw x y n) :=
  (exec_drw_within h).trans (advance_setV_legal (s := s.setDisp _) hpc)

theorem exec_drw_illegal (h : s.ms.i.toNat + n.val ≤ 0x1000) (hpc : ¬PcLegal (s.ms.pc.toNat + 2)) :
    exec (.drw x y n) s = .fault (.invalidMemoryAccess (s.ms.pc.toNat + 2)) :=
  (exec_drw_within h).trans (advance_setV_illegal (s := s.setDisp _) hpc)

/-- Everything DRW can answer with a next state. -/
theorem exec_drw_next {t : State} (h : exec (.drw x y n) s = .next t) : t = s.afterDraw x y n := by
  obtain ⟨rows, hread, h⟩ := attempt_next h
  obtain ⟨-, hrows⟩ | ⟨-, -, hfault⟩ := readBytes_cases hread
  · obtain rfl : rows = spriteRows s n := Except.ok.inj hrows
    exact (advance_next h).right
  · cases hfault

/-! ### Drawing the same sprite again (R203, R204) -/

theorem v_afterDraw_of_ne {z : Reg} (hz : z ≠ 15) : (s.afterDraw x y n).ms.v[z] = s.ms.v[z] :=
  Vector.getElem_set_ne (by decide) _ fun heq => hz (Fin.ext heq.symm)

theorem VF_afterDraw (s : State) (x y : Reg) (n : Fin 16) :
    (s.afterDraw x y n).ms.v[15] = flagByte (drawnCanvas s x y n).2 :=
  Vector.getElem_set_self _

/-- A draw changes neither the sprite nor its place, unless a coordinate comes from VF. -/
theorem spriteSets_afterDraw (hx : x ≠ 15) (hy : y ≠ 15) :
    spriteSets (s.afterDraw x y n) x y n r c ↔ spriteSets s x y n r c := by
  rw [spriteSets, v_afterDraw_of_ne hx, v_afterDraw_of_ne hy]
  rfl

/-- The pixels that the sprite sets are toggled twice, the others not at all. -/
theorem disp_afterDraw_twice (hx : x ≠ 15) (hy : y ≠ 15) :
    ((s.afterDraw x y n).afterDraw x y n).ms.disp = s.ms.disp := by
  refine Display.ext fun r c => ?_
  by_cases h : spriteSets s x y n r c
  · calc (drawnCanvas (s.afterDraw x y n) x y n).1.pixel r c
      _ = !(drawnCanvas s x y n).1.pixel r c := pixel_drawnCanvas_of_spriteSets ((spriteSets_afterDraw hx hy).mpr h)
      _ = !!s.ms.disp.pixel r c := congrArg _ (pixel_drawnCanvas_of_spriteSets h)
      _ = s.ms.disp.pixel r c := Bool.not_not _
  · calc (drawnCanvas (s.afterDraw x y n) x y n).1.pixel r c
      _ = (drawnCanvas s x y n).1.pixel r c :=
        pixel_drawnCanvas_of_not_spriteSets (mt (spriteSets_afterDraw hx hy).mp h)
      _ = s.ms.disp.pixel r c := pixel_drawnCanvas_of_not_spriteSets h

/-- A pixel the first draw set is met by the second. -/
theorem VF_afterDraw_twice (hx : x ≠ 15) (hy : y ≠ 15) (hset : spriteSets s x y n r c)
    (hunset : s.ms.disp.pixel r c = false) : ((s.afterDraw x y n).afterDraw x y n).ms.v[15] = 1#8 := by
  have hdrawn : (s.afterDraw x y n).ms.disp.pixel r c = true := by
    rw [← Bool.not_false, ← hunset]
    exact pixel_drawnCanvas_of_spriteSets hset
  rw [VF_afterDraw]
  exact flagByte_drawnCanvas_of_hit ((spriteSets_afterDraw hx hy).mpr hset) hdrawn

end

/-! ### display(), sound_active() and set_speed() (R206, R264, R237) -/

theorem State.soundActive_eq_true {s : State} (h : s.ms.st ≠ 0) : s.soundActive = true :=
  decide_eq_true (Nat.pos_of_ne_zero fun hzero => h (BitVec.eq_of_toNat_eq hzero))

theorem State.soundActive_eq_false {s : State} (h : s.ms.st = 0) : s.soundActive = false := by
  rw [State.soundActive, h]
  rfl

theorem State.setSpeed_of_pos {k : Nat} (s : State) (h : 1 ≤ k) : s.setSpeed k = .next { s with speedK := k } :=
  if_pos h

/-! ### The statements of the family -/

/-- Settles O38: the block read fails as R57 says, or the canvas of the sprite is staged and pc advances. -/
theorem drwXorsTheSpriteAndReportsCollision : Obligations.DrwXorsTheSpriteAndReportsCollision := by
  intro s x y n hi
  refine ⟨decode_encode (i := .drw x y n) rfl nofun, fun hn hout => ?outside, exec_drw_illegal,
    fun hfit hpc => ?draws⟩
  case outside =>
    obtain ⟨-, -, hfault, hmax⟩ := blockAccessesReportTheFirstBadAddress s x y n
    rw [hfault hn hout, hmax hi]
  case draws =>
    exact ⟨_, _, exec_drw_legal hfit hpc, fun _ _ => pixel_drawnCanvas_of_spriteSets,
      fun _ _ => pixel_drawnCanvas_of_not_spriteSets,
      fun ⟨_, _, hset, hpixel⟩ => flagByte_drawnCanvas_of_hit hset hpixel, flagByte_drawnCanvas_of_unset⟩

/-- Settles O39: the second draw toggles the same pixels, of which the first has set one if the sprite has a set
bit. -/
theorem redrawingErasesTheSprite : Obligations.RedrawingErasesTheSprite := by
  intro s t u x y n hx hy hfirst hsecond
  obtain rfl := exec_drw_next hfirst
  obtain rfl := exec_drw_next hsecond
  refine ⟨disp_afterDraw_twice hx hy, fun ⟨j, k, hj, hk, hbit⟩ hunset => ?collides⟩
  case collides =>
    obtain ⟨r, c, hset⟩ := exists_spriteSets x y hj hk hbit
    exact VF_afterDraw_twice hx hy hset (hunset r c hset)

/-- Settles O37: an advance of the blank display. -/
theorem clsUnsetsEveryPixel : Obligations.ClsUnsetsEveryPixel := by
  intro s
  exact ⟨decode_encode (i := .cls) rfl nofun, fun hpc => ⟨_, exec_cls_legal hpc, Display.pixel_blank⟩,
    exec_cls_illegal⟩

/-- Settles O51: an observation answers from the state it leaves as it was, and set_speed stages the multiplier
alone or is refused. -/
theorem observationsAndSpeedDoOnlyTheirPart : Obligations.ObservationsAndSpeedDoOnlyTheirPart := by
  intro s k
  refine ⟨rfl, fun hst => ?sounding, fun hst => ?silent, fun hk => ?speed, rfl⟩
  case sounding => rw [Block.perform, State.perform, State.soundActive_eq_true hst]
  case silent => rw [Block.perform, State.perform, State.soundActive_eq_false hst]
  case speed => rw [Block.perform, State.perform, s.setSpeed_of_pos hk, Block.settle]

end Sys2Proof.Machine
end

section
/-! Proofs of the family 47_host_operations.md: the step as a function of the machine state alone (R220, R238), the
operations set_key, push_snapshot and rewind (R225, R231 to R234), and the rewinds that undo a schedule of pushes
(R240). -/

namespace Sys2Proof.Machine

/-! ### Instructions and steps under another manager (R220, R238)

Another snapshot buffer, frame counter and multiplier pass through every operation that a meaning is made of: each
lemma moves `withManager` from the answer to the state the operation starts at. -/

/-- The block with another snapshot buffer, frame counter and speed multiplier. -/
def State.withManager (buf : List Snapshot) (ctr k : Nat) (s : State) : State :=
  { s with snapbuf := buf, frameCtr := ctr, speedK := k }

/-- The next state of an answer changed by `f`; an error or a refusal stays. -/
def mapNext (f : State → State) : Answer → Answer
  | .next s => .next (f s)
  | .fault e => .fault e
  | .refused r => .refused r

theorem mapNext_attempt {α : Type} (f : State → State) (r : Except Fault α) (k : α → Answer) :
    mapNext f (attempt r k) = attempt r fun a => mapNext f (k a) := by
  cases r <;> rfl

theorem attempt_map {α β : Type} (g : α → β) (r : Except Fault α) (k : β → Answer) :
    attempt (r.map g) k = attempt r fun a => k (g a) := by
  cases r <;> rfl

section
variable (buf : List Snapshot) (ctr k : Nat) (s : State)

theorem setPc_withManager (t : Nat) :
    mapNext (State.withManager buf ctr k) (setPc t s) = setPc t (s.withManager buf ctr k) :=
  mapNext_attempt _ _ _

theorem advance_withManager :
    mapNext (State.withManager buf ctr k) (advance s) = advance (s.withManager buf ctr k) :=
  setPc_withManager buf ctr k s _

theorem skipIf_withManager (c : Bool) :
    mapNext (State.withManager buf ctr k) (skipIf c s) = skipIf c (s.withManager buf ctr k) :=
  setPc_withManager buf ctr k s _

theorem setLogicResult_withManager (x : Reg) (r : Byte) :
    (s.setLogicResult x r).withManager buf ctr k = (s.withManager buf ctr k).setLogicResult x r :=
  apply_ite (State.withManager buf ctr k) (s.cfg.logicVfReset = true) _ _

theorem push_withManager (w : Word) :
    (s.push w).map (State.withManager buf ctr k) = (s.withManager buf ctr k).push w :=
  apply_dite (Except.map (State.withManager buf ctr k)) (s.ms.sp.val < 16) _ _

theorem pop_withManager :
    s.pop.map (Prod.map id (State.withManager buf ctr k)) = (s.withManager buf ctr k).pop :=
  apply_dite (Except.map (Prod.map id (State.withManager buf ctr k))) (0 < s.ms.sp.val) _ _

theorem indexAfterBlock_withManager (x : Reg) :
    (indexAfterBlock x s).map (State.withManager buf ctr k) = indexAfterBlock x (s.withManager buf ctr k) := by
  cases hcfg : s.cfg.ldstIInc with
  | none =>
    simp only [indexAfterBlock, State.withManager, hcfg]
    rfl
  | xPlus1 =>
    simp only [indexAfterBlock, State.withManager, hcfg]
    exact apply_ite (Except.map (State.withManager buf ctr k)) (s.ms.i.toNat + x.val + 1 > 0xFFF) _ _

/-- The end of an instruction that stages a block transfer and then moves I. -/
theorem attempt_indexAfterBlock_withManager (x : Reg) :
    mapNext (State.withManager buf ctr k) (attempt (indexAfterBlock x s) advance) =
      attempt (indexAfterBlock x (s.withManager buf ctr k)) advance := by
  simp only [mapNext_attempt, advance_withManager, ← indexAfterBlock_withManager, attempt_map]

theorem exec_withManager (i : Instr) :
    mapNext (State.withManager buf ctr k) (exec i s) = exec i (s.withManager buf ctr k) := by
  cases i with
  | sys nnn =>
    cases hmode : s.cfg.sysMode with
    | nop =>
      rw [exec_sys_nop nnn hmode, exec_sys_nop nnn (s := s.withManager buf ctr k) hmode]
      exact advance_withManager buf ctr k s
    | unknown => simp only [exec, execSys, State.withManager, hmode]; rfl
  | jp | jpV0 => exact setPc_withManager buf ctr k s _
  | seImm | sneImm | seReg | sneReg | skp | sknp => exact skipIf_withManager buf ctr k s _
  | call nnn =>
    simp only [exec, execCall, mapNext_attempt, setPc_withManager, ← push_withManager, attempt_map]
    rfl
  | ret => simp only [exec, execRet, mapNext_attempt, setPc_withManager, ← pop_withManager, attempt_map]; rfl
  | orReg | andReg | xorReg =>
    exact (advance_withManager ..).trans (congrArg advance (setLogicResult_withManager ..))
  | ldVxK x =>
    have hkey : lowestKey (s.withManager buf ctr k) = lowestKey s := rfl
    cases hpressed : lowestKey s with
    | none => simp only [exec, execLdVxK, hkey, hpressed]; rfl
    | some key =>
      simp only [exec, execLdVxK, hkey, hpressed]
      exact advance_withManager buf ctr k (s.setV x _)
  | addI x =>
    exact (apply_ite (mapNext _) _ _ _).trans (congrArg (ite _ _) (advance_withManager ..))
  | drw | ldB =>
    exact (mapNext_attempt ..).trans (congrArg (attempt _) (funext fun _ => advance_withManager ..))
  | ldMemVx | ldVxMem =>
    exact (mapNext_attempt ..).trans (congrArg (attempt _) (funext fun _ => attempt_indexAfterBlock_withManager ..))
  | _ => exact advance_withManager buf ctr k _

theorem step_withManager :
    mapNext (State.withManager buf ctr k) (step s) = step (s.withManager buf ctr k) := by
  refine (mapNext_attempt ..).trans (congrArg (attempt (fetchWord s)) (funext fun w => ?_))
  have hcfg : (s.withManager buf ctr k).cfg = s.cfg := rfl
  rw [hcfg]
  cases decode s.cfg.sysMode w with
  | ok i => exact exec_withManager buf ctr k s i
  | error e => rfl

end

/-- Settles O44: what a step leaves of the manager is what its instruction leaves, all of it, and its answer under
another manager is its answer with that manager put in. -/
theorem stepsIgnoreTheManagerState : Obligations.StepsIgnoreTheManagerState := by
  intro s buf ctr k
  have hother := step_withManager buf ctr k s
  refine ⟨fun t h => ?completes, fun e h => ?fails⟩
  case completes =>
    obtain ⟨_, _, -, -, hexec⟩ := step_next h
    obtain ⟨hbuf, hctr, hspeed, hcfg⟩ := (exec_next hexec).manager_eq
    rw [h] at hother
    exact ⟨hbuf, hctr, hspeed, hcfg, hother.symm⟩
  case fails =>
    rw [h] at hother
    exact hother.symm

/-! ### set_key(), push_snapshot() and rewind() (R225, R231 to R234) -/

section
variable (s : State)

theorem State.setKey_at (k : KeyIndex) (pressed : Bool) :
    s.setKey k.val pressed = .next (s.withKey k pressed) :=
  dif_pos k.isLt

theorem State.setKey_outside {index : Nat} (pressed : Bool) (h : 16 ≤ index) :
    s.setKey index pressed = .refused (.keyIndexOutOfRange index) :=
  dif_neg (Nat.not_lt.mpr h)

theorem evictIfFull_of_ne {cap : Nat} {buf : List Snapshot} (h : buf.length ≠ cap) : evictIfFull cap buf = buf :=
  if_neg h

theorem evictIfFull_of_full {cap : Nat} {oldest : Snapshot} {rest : List Snapshot}
    (h : (oldest :: rest).length = cap) : evictIfFull cap (oldest :: rest) = rest :=
  if_pos h

theorem State.rewind_empty (h : s.snapbuf = []) : s.rewind = .fault .bufferEmpty := by
  rw [State.rewind, h]
  rfl

theorem State.rewind_append {older : List Snapshot} {newest : Snapshot} (h : s.snapbuf = older ++ [newest]) :
    s.rewind = .next { s with ms := newest.ms, snapbuf := older } := by
  rw [State.rewind, h, List.getLast?_concat, List.dropLast_concat]

end

/-- Settles O50: the key is written where its index is in range, else the call is refused. -/
theorem setKeyWritesOneKey : Obligations.SetKeyWritesOneKey := by
  intro s index pressed
  refine ⟨fun k hk => ?inside, fun hout => ?outside⟩
  case inside =>
    rw [hk, Block.perform, State.perform, s.setKey_at]
    rfl
  case outside => rw [Block.perform, State.perform, s.setKey_outside pressed hout, Block.settle]

/-- Settles O52: the eviction leaves a buffer with room, and takes the oldest entry of a full one. -/
theorem pushAppendsACopyAndEvictsTheOldest : Obligations.PushAppendsACopyAndEvictsTheOldest := by
  intro s
  refine ⟨fun hroom => ?room, fun oldest rest hbuf hfull => ?full⟩
  case room =>
    rw [Block.perform, State.perform, State.pushSnapshot, evictIfFull_of_ne hroom, State.capture]
  case full =>
    rw [hbuf] at hfull
    rw [Block.perform, State.perform, State.pushSnapshot, hbuf, evictIfFull_of_full hfull, State.capture]

/-- Settles O53: the buffer has a last entry, which the rewind takes, or is empty. -/
theorem rewindRestoresTheNewestSnapshot : Obligations.RewindRestoresTheNewestSnapshot := by
  intro s
  refine ⟨fun older newest hbuf => ?restores, fun hempty => ?empty⟩
  case restores => rw [Block.perform, State.perform, s.rewind_append hbuf, Block.settle]
  case empty => rw [Block.perform, State.perform, s.rewind_empty hempty, Block.settle]

/-- Settles O58: every operation but a load leaves a created block. -/
theorem nothingRunsBeforeTheFirstLoad : Obligations.NothingRunsBeforeTheFirstLoad :=
  fun _ _ => Block.perform_created

/-! ### The newest entries of a history

`List.rtake` takes them from its end. After a schedule of pushes the buffer holds the newest SNAP_CAP of the machine
states that were pushed (R240). -/

theorem rtake_rtake_append {α : Type} (n : Nat) (l l' : List α) : (l.rtake n ++ l').rtake n = (l ++ l').rtake n := by
  simp only [List.rtake_eq_reverse_take_reverse, List.reverse_append, List.reverse_reverse, List.take_append,
    List.take_take, Nat.min_eq_left (Nat.sub_le n _)]

theorem length_rtake {α : Type} (n : Nat) (l : List α) : (l.rtake n).length = min l.length n := by
  rw [List.rtake, List.length_drop]
  omega

theorem rtake_of_length_le {α : Type} {n : Nat} {l : List α} (h : l.length ≤ n) : l.rtake n = l := by
  rw [List.rtake, Nat.sub_eq_zero_of_le h, List.drop_zero]

theorem map_rtake {α β : Type} (f : α → β) (n : Nat) (l : List α) : (l.rtake n).map f = (l.map f).rtake n := by
  rw [List.rtake, List.rtake, List.map_drop, List.length_map]

/-- Counted from the end, an entry keeps its place. -/
theorem getElem?_rtake_from_end {α : Type} {n m : Nat} {l : List α} (h : m ≤ (l.rtake n).length) :
    (l.rtake n)[(l.rtake n).length - m]? = l[l.length - m]? := by
  rw [length_rtake] at h ⊢
  rw [List.rtake, List.getElem?_drop]
  congr 1
  omega

/-! ### The operations between two pushes leave the buffer (R240) -/

/-- The snapshot buffer and its capacity are those of `s`. -/
def SameBuffer (s t : State) : Prop := t.snapbuf = s.snapbuf ∧ t.cfg = s.cfg

theorem settle_sameBuffer {s : State} {a : Answer} (h : ∀ t, a = .next t → SameBuffer s t) :
    ∃ t, ((Block.loaded s).settle a).1 = .loaded t ∧ SameBuffer s t := by
  cases a with
  | next t => exact ⟨t, rfl, h t rfl⟩
  | fault | refused => exact ⟨s, rfl, rfl, rfl⟩

theorem step_sameBuffer {s t : State} (h : step s = .next t) : SameBuffer s t := by
  obtain ⟨_, _, -, -, hexec⟩ := step_next h
  obtain ⟨hbuf, -, -, hcfg⟩ := (exec_next hexec).manager_eq
  exact ⟨hbuf, hcfg⟩

theorem setKey_sameBuffer {s t : State} {index : Nat} {pressed : Bool} (h : s.setKey index pressed = .next t) :
    SameBuffer s t := by
  unfold State.setKey at h
  split at h
  · cases h; exact ⟨rfl, rfl⟩
  · cases h

theorem setSpeed_sameBuffer {s t : State} {k : Nat} (h : s.setSpeed k = .next t) : SameBuffer s t := by
  unfold State.setSpeed at h
  split at h
  · cases h; exact ⟨rfl, rfl⟩
  · cases h

theorem perform_sameBuffer {op : Op} (s : State) (h : op.keepsSnapshots = true) :
    ∃ t, ((Block.loaded s).perform op).1 = .loaded t ∧ SameBuffer s t := by
  cases op with
  | load | pushSnapshot | rewind => cases h
  | tickTimers | display | soundActive => exact ⟨_, rfl, rfl, rfl⟩
  | step => exact settle_sameBuffer fun _ => step_sameBuffer
  | setKey => exact settle_sameBuffer fun _ => setKey_sameBuffer
  | setSpeed => exact settle_sameBuffer fun _ => setSpeed_sameBuffer

theorem run_sameBuffer {ops : List Op} (s : State) (h : ∀ op ∈ ops, op.keepsSnapshots = true) :
    ∃ t, Block.run ops (.loaded s) = .loaded t ∧ SameBuffer s t := by
  induction ops generalizing s with
  | nil => exact ⟨s, rfl, rfl, rfl⟩
  | cons op ops ih =>
    obtain ⟨hop, hops⟩ := List.forall_mem_cons.mp h
    obtain ⟨t, ht, hbuf, hcfg⟩ := perform_sameBuffer s hop
    obtain ⟨u, hu, hbuf', hcfg'⟩ := ih t hops
    exact ⟨u, by rw [Block.run, ht, hu], hbuf'.trans hbuf, hcfg'.trans hcfg⟩

/-! ### A schedule of pushes (R231, R240) -/

/-- The machine states of a block's snapshots, oldest first. -/
def State.copies (s : State) : List MachineState := s.snapbuf.map Snapshot.ms

theorem length_copies (s : State) : s.copies.length = s.snapbuf.length := List.length_map _

theorem evictIfFull_append {cap : Nat} {buf : List Snapshot} (snap : Snapshot) (hcap : 1 ≤ cap)
    (hlen : buf.length ≤ cap) : evictIfFull cap buf ++ [snap] = (buf ++ [snap]).rtake cap := by
  by_cases hfull : buf.length = cap
  · have hone : (buf ++ [snap]).length - cap = 1 := by rw [List.length_append, List.length_singleton]; omega
    rw [evictIfFull, if_pos hfull, List.rtake, hone, List.drop_append_of_le_length (hfull ▸ hcap)]
  · rw [evictIfFull_of_ne hfull, rtake_of_length_le]
    rw [List.length_append, List.length_singleton]
    omega

/-- A push leaves the newest SNAP_CAP of the copies that were there and the live machine state. -/
theorem copies_pushSnapshot {s : State} (hcap : 1 ≤ s.cfg.snapCap) (hlen : s.snapbuf.length ≤ s.cfg.snapCap) :
    s.pushSnapshot.copies = (s.copies ++ [s.ms]).rtake s.cfg.snapCap := by
  rw [State.copies, State.pushSnapshot_snapbuf, evictIfFull_append _ hcap hlen, map_rtake, List.map_append]
  rfl

/-- One group of a schedule: its push reaches the buffer, and its operations leave it. -/
theorem run_group {ops : List Op} (s : State) (h : ∀ op ∈ ops, op.keepsSnapshots = true) :
    ∃ t, Block.run (.pushSnapshot :: ops) (.loaded s) = .loaded t ∧ SameBuffer s.pushSnapshot t :=
  run_sameBuffer s.pushSnapshot h

theorem length_pushedStates {groups : List (List Op)} (s : State)
    (h : ∀ ops ∈ groups, ∀ op ∈ ops, op.keepsSnapshots = true) :
    (pushedStates groups (.loaded s)).length = groups.length := by
  induction groups generalizing s with
  | nil => rfl
  | cons ops groups ih =>
    obtain ⟨hops, hgroups⟩ := List.forall_mem_cons.mp h
    obtain ⟨t, ht, -⟩ := run_group s hops
    rw [pushedStates, ht, List.length_cons, ih t hgroups, List.length_cons]

/-- A schedule leaves the newest SNAP_CAP of the copies that were there and the pushed states. -/
theorem run_pushSchedule {groups : List (List Op)} {s : State} (hcap : 1 ≤ s.cfg.snapCap)
    (hlen : s.snapbuf.length ≤ s.cfg.snapCap) (h : ∀ ops ∈ groups, ∀ op ∈ ops, op.keepsSnapshots = true) :
    ∃ t, Block.run (pushSchedule groups) (.loaded s) = .loaded t ∧
      t.copies = (s.copies ++ pushedStates groups (.loaded s)).rtake s.cfg.snapCap := by
  induction groups generalizing s with
  | nil =>
    refine ⟨s, rfl, ?_⟩
    rw [pushedStates, List.append_nil, rtake_of_length_le ((length_copies s).trans_le hlen)]
  | cons ops groups ih =>
    obtain ⟨hops, hgroups⟩ := List.forall_mem_cons.mp h
    obtain ⟨t, ht, hbuf, hcfg⟩ := run_group s hops
    have hcopies : t.copies = (s.copies ++ [s.ms]).rtake s.cfg.snapCap := by
      rw [State.copies, hbuf]
      exact copies_pushSnapshot hcap hlen
    have hlen' : t.snapbuf.length ≤ t.cfg.snapCap := by
      rw [← length_copies, hcopies, length_rtake, hcfg]
      exact Nat.min_le_right _ _
    obtain ⟨u, hu, hcopies'⟩ := ih (hcfg ▸ hcap) hlen' hgroups
    refine ⟨u, ?run, ?copies⟩
    case run => rw [pushSchedule, ← List.cons_append, Block.run_append, ht, hu]
    case copies =>
      rw [hcopies', hcopies, hcfg, State.pushSnapshot_cfg, rtake_rtake_append, List.append_assoc, pushedStates,
        ht, List.singleton_append]

/-! ### The rewinds that undo a schedule (R233, R240) -/

theorem perform_rewind_append {s : State} {older : List Snapshot} {newest : Snapshot}
    (h : s.snapbuf = older ++ [newest]) :
    ((Block.loaded s).perform .rewind).1 = .loaded { s with ms := newest.ms, snapbuf := older } := by
  rw [(rewindRestoresTheNewestSnapshot s).1 older newest h]

/-- As many rewinds as there are entries from `target` on restore its copy, the older entries staying. -/
theorem run_rewinds {s : State} {older newer : List Snapshot} {target : Snapshot}
    (h : s.snapbuf = older ++ target :: newer) :
    Block.run (List.replicate (newer.length + 1) .rewind) (.loaded s) =
      .loaded { s with ms := target.ms, snapbuf := older } := by
  induction newer using List.reverseRecOn generalizing s with
  | nil => exact perform_rewind_append h
  | append_singleton newer newest ih =>
    have hnewest : s.snapbuf = (older ++ target :: newer) ++ [newest] := by rw [h]; simp
    rw [List.length_append, List.length_singleton, List.replicate_succ, Block.run, perform_rewind_append hnewest]
    exact ih rfl

/-- The n-th rewind, n at least 1, restores the n-th newest copy. -/
theorem run_rewinds_copy {s : State} {n : Nat} (hn : 1 ≤ n) (hlen : n ≤ s.copies.length) :
    ∃ t, Block.run (List.replicate n .rewind) (.loaded s) = .loaded t ∧
      s.copies[s.copies.length - n]? = some t.ms := by
  rw [length_copies] at hlen ⊢
  have hat : s.snapbuf.length - n < s.snapbuf.length := by omega
  have hsplit : s.snapbuf = s.snapbuf.take (s.snapbuf.length - n) ++
      s.snapbuf[s.snapbuf.length - n] :: s.snapbuf.drop (s.snapbuf.length - n + 1) := by
    rw [List.getElem_cons_drop, List.take_append_drop]
  have hrun := run_rewinds hsplit
  rw [List.length_drop, show s.snapbuf.length - (s.snapbuf.length - n + 1) + 1 = n by omega] at hrun
  refine ⟨_, hrun, ?_⟩
  rw [State.copies, List.getElem?_map, List.getElem?_eq_getElem hat, Option.map_some]

/-- As many rewinds as there are snapshots leave an empty buffer. -/
theorem run_rewinds_all (s : State) :
    ∃ t, Block.run (List.replicate s.copies.length .rewind) (.loaded s) = .loaded t ∧ t.snapbuf = [] := by
  rw [length_copies]
  cases hbuf : s.snapbuf with
  | nil => exact ⟨s, rfl, hbuf⟩
  | cons oldest newer => exact ⟨_, run_rewinds (older := []) hbuf, rfl⟩

/-- Settles O54: the schedule leaves the newest SNAP_CAP pushed states in the buffer, from which the rewinds take
them one by one until it is empty. -/
theorem rewindsStepBackThroughThePushes : Obligations.RewindsStepBackThroughThePushes := by
  intro s groups b hempty hcap hkeeps hb
  have hlen : s.snapbuf.length ≤ s.cfg.snapCap := by simp [hempty]
  obtain ⟨u, hu, hcopies⟩ := run_pushSchedule hcap hlen hkeeps
  have hpushed := length_pushedStates s hkeeps
  have hfresh : s.copies = [] := by rw [State.copies, hempty, List.map_nil]
  rw [hfresh, List.nil_append] at hcopies
  have hcount : u.copies.length = min groups.length s.cfg.snapCap := by rw [hcopies, length_rtake, hpushed]
  rw [hb, hu, ← hcount, ← hpushed]
  refine ⟨fun n hn hle => ?restores, ?empty⟩
  case restores =>
    obtain ⟨t, ht, hcopy⟩ := run_rewinds_copy hn hle
    refine ⟨t, ht, ?_⟩
    rw [← hcopy]
    rw [hcopies] at hle ⊢
    exact (getElem?_rtake_from_end hle).symm
  case empty =>
    obtain ⟨t, ht, hnone⟩ := run_rewinds_all u
    rw [ht, (rewindRestoresTheNewestSnapshot t).2 hnone]

end Sys2Proof.Machine
end

section
/-! Proofs of the family 60_exceptions.md: which operation raises which error (R250, R253, R254), what a failing
operation leaves (R251, 30_encoding.md R85), and the timers' ticks (R262). -/

namespace Sys2Proof.Machine

/-! ### What an instruction and a step can fail with (R250 to R255)

An answer is never a refusal, and each error it can be is allowed by a predicate: one rule for each operation that a
meaning is made of, then one case for each instruction. -/

/-- The answer is a next state or an error that `P` allows. -/
def FailsOnlyWith (P : Fault → Prop) : Answer → Prop
  | .next _ => True
  | .fault e => P e
  | .refused _ => False

section
variable {P Q : Fault → Prop} {a : Answer}

theorem FailsOnlyWith.allowed {e : Fault} (h : FailsOnlyWith P a) (ha : a = .fault e) : P e := by
  subst ha; exact h

theorem FailsOnlyWith.not_refused (h : FailsOnlyWith P a) (r : Refusal) : a ≠ .refused r := by
  rintro rfl; exact h

theorem FailsOnlyWith.mono (h : FailsOnlyWith P a) (hPQ : ∀ e, P e → Q e) : FailsOnlyWith Q a := by
  cases a with
  | next t => exact trivial
  | fault e => exact hPQ e h
  | refused r => exact h

theorem FailsOnlyWith.attempt {α : Type} {r : Except Fault α} {k : α → Answer} (hr : ∀ e, r = .error e → P e)
    (hk : ∀ x, FailsOnlyWith P (k x)) : FailsOnlyWith P (attempt r k) := by
  cases r with
  | ok x => exact hk x
  | error e => exact hr e rfl

end

/-- The errors an instruction can end with, and when (R252 to R255). -/
inductive ExecError : Instr → State → Fault → Prop
  | access {i : Instr} {s : State} (address : Nat) : ExecError i s (.invalidMemoryAccess address)
  | full {nnn : Addr} {s : State} (depth : s.ms.sp.val = 16) : ExecError (.call nnn) s .stackOverflow
  | empty {s : State} (depth : s.ms.sp.val = 0) : ExecError .ret s .stackUnderflow
  /-- No step gets here: under SYS_MODE = unknown no word decodes to SYS (R75). -/
  | unknown {nnn : Addr} {s : State} (mode : s.cfg.sysMode = .unknown) :
      ExecError (.sys nnn) s (.unknownOpcode (encode (.sys nnn)))

section
variable {i : Instr} {s : State}

theorem setPc_failsOnlyWith (t : Nat) (u : State) : FailsOnlyWith (ExecError i s) (setPc t u) := by
  by_cases ht : PcLegal t
  · rw [setPc_legal u ht]; exact trivial
  · rw [setPc_illegal u ht]; exact .access t

theorem execError_of_checkPc {t : Nat} {e : Fault} (h : checkPc t = .error e) : ExecError i s e := by
  by_cases ht : PcLegal t
  · rw [checkPc_ok ht] at h; cases h
  · rw [checkPc_error ht] at h; cases h; exact .access t

theorem execError_of_readBytes {m : Memory} {a n : Nat} {e : Fault} (h : readBytes m a n = .error e) :
    ExecError i s e := by
  obtain ⟨-, hr⟩ | ⟨-, -, hr⟩ := readBytes_cases h
  · cases hr
  · cases hr; exact .access _

theorem execError_of_writeBytes {m : Memory} {a : Nat} {bs : List Byte} {e : Fault}
    (h : writeBytes m a bs = .error e) : ExecError i s e := by
  obtain ⟨-, hr⟩ | ⟨-, -, hr⟩ := writeBytes_cases h
  · cases hr
  · cases hr; exact .access _

theorem execError_of_indexAfterBlock {x : Reg} {u : State} {e : Fault} (h : indexAfterBlock x u = .error e) :
    ExecError i s e := by
  unfold indexAfterBlock at h
  split at h
  · cases h
  · split at h
    · cases h; exact .access _
    · cases h

theorem attempt_indexAfterBlock_failsOnlyWith (x : Reg) (u : State) :
    FailsOnlyWith (ExecError i s) (attempt (indexAfterBlock x u) advance) :=
  .attempt (fun _ => execError_of_indexAfterBlock) fun t => setPc_failsOnlyWith _ t

end

theorem exec_failsOnlyWith (i : Instr) (s : State) : FailsOnlyWith (ExecError i s) (exec i s) := by
  cases i with
  | sys nnn =>
    simp only [exec, execSys]
    split
    · exact setPc_failsOnlyWith _ _
    · exact .unknown ‹_›
  | ret =>
    refine .attempt (fun e he => ?_) fun _ => setPc_failsOnlyWith _ _
    obtain ⟨hsp, rfl⟩ := State.pop_error he
    exact .empty hsp
  | call nnn =>
    refine .attempt (fun e he => ?_) fun _ =>
      .attempt (fun _ => execError_of_checkPc) fun _ => setPc_failsOnlyWith _ _
    obtain ⟨hsp, rfl⟩ := State.push_error he
    exact .full hsp
  | ldVxK x =>
    simp only [exec, execLdVxK]
    split
    · exact trivial
    · exact setPc_failsOnlyWith _ _
  | addI x =>
    simp only [exec, execAddI]
    split
    · exact .access _
    · exact setPc_failsOnlyWith _ _
  | drw x y n => exact .attempt (fun _ => execError_of_readBytes) fun _ => setPc_failsOnlyWith _ _
  | ldB x => exact .attempt (fun _ => execError_of_writeBytes) fun _ => setPc_failsOnlyWith _ _
  | ldMemVx x =>
    exact .attempt (fun _ => execError_of_writeBytes) fun _ => attempt_indexAfterBlock_failsOnlyWith _ _
  | ldVxMem x =>
    exact .attempt (fun _ => execError_of_readBytes) fun _ => attempt_indexAfterBlock_failsOnlyWith _ _
  | _ => exact setPc_failsOnlyWith _ _

/-- Settles O9: the allowed errors say when each is raised, and both instructions begin with their stack
operation. -/
theorem stackErrorsComeFromCallAndRet : Obligations.StackErrorsComeFromCallAndRet := by
  intro i s
  refine ⟨⟨fun h => ?overflow, ?full⟩, ⟨fun h => ?underflow, ?empty⟩⟩
  case overflow =>
    cases (exec_failsOnlyWith i s).allowed h with
    | @full nnn _ depth => exact ⟨⟨nnn, rfl⟩, depth⟩
  case full =>
    rintro ⟨⟨nnn, rfl⟩, depth⟩
    rw [exec, execCall, State.push_full _ depth, attempt_error]
  case underflow =>
    cases (exec_failsOnlyWith i s).allowed h with
    | empty depth => exact ⟨rfl, depth⟩
  case empty =>
    rintro ⟨rfl, depth⟩
    rw [exec, execRet, State.pop_empty depth, attempt_error]

/-- One of the four errors of the enumeration ExecError (R250): the two others are a load's and a rewind's. -/
def IsStepError (e : Fault) : Prop := e ≠ .romTooLarge ∧ e ≠ .bufferEmpty

theorem ExecError.isStepError {i : Instr} {s : State} {e : Fault} (h : ExecError i s e) : IsStepError e := by
  cases h <;> exact ⟨nofun, nofun⟩

/-- A step fails in its fetch, on an Unknown word, or in its instruction. -/
theorem step_failsOnlyWith (s : State) : FailsOnlyWith IsStepError (step s) := by
  refine .attempt (fun e he => ?fetch) fun w => ?decoded
  case fetch =>
    obtain ⟨-, hr⟩ | ⟨-, hr⟩ := fetchWord_cases he
    · cases hr
    · cases hr; exact ⟨nofun, nofun⟩
  case decoded =>
    cases decode s.cfg.sysMode w with
    | ok i => exact (exec_failsOnlyWith i s).mono fun _ => ExecError.isStepError
    | error _ => exact ⟨nofun, nofun⟩

/-! ### What the host's operations return (R250, R251) -/

section
variable {b : Block} {e : Fault}

theorem Block.settle_err {a : Answer} (h : (b.settle a).2 = .err e) : a = .fault e := by
  cases a with
  | fault e' => cases h; rfl
  | next | refused => cases h

theorem Block.perform_load_err {rom : List Byte} (h : (b.perform (.load rom)).2 = .err e) : e = .romTooLarge := by
  by_cases hrom : rom.length ≤ 3584
  · obtain ⟨draws, hload⟩ := b.perform_load hrom
    rw [hload] at h; cases h
  · rw [b.perform_load_tooLarge hrom] at h; cases h; rfl

theorem State.rewind_fault {s : State} (h : s.rewind = .fault e) : e = .bufferEmpty := by
  unfold State.rewind at h
  split at h
  · cases h; rfl
  · cases h

theorem Block.perform_rewind_err (h : (b.perform .rewind).2 = .err e) : e = .bufferEmpty := by
  cases b with
  | created cfg => cases h
  | loaded s => exact State.rewind_fault (settle_err h)

theorem State.setKey_ne_fault (index : Nat) (pressed : Bool) (s : State) : s.setKey index pressed ≠ .fault e := by
  unfold State.setKey
  split <;> exact nofun

theorem State.setSpeed_ne_fault (k : Nat) (s : State) : s.setSpeed k ≠ .fault e := by
  unfold State.setSpeed
  split <;> exact nofun

theorem Block.op_of_perform_err {op : Op} (h : (b.perform op).2 = .err e) :
    op = .step ∨ op = .rewind ∨ ∃ bytes, op = .load bytes := by
  cases b with
  | created cfg =>
    cases op with
    | load bytes => exact .inr (.inr ⟨bytes, rfl⟩)
    | _ => cases h
  | loaded s =>
    cases op with
    | step => exact .inl rfl
    | rewind => exact .inr (.inl rfl)
    | load bytes => exact .inr (.inr ⟨bytes, rfl⟩)
    | setKey index pressed => exact absurd (settle_err h) (s.setKey_ne_fault index pressed)
    | setSpeed k => exact absurd (settle_err h) (s.setSpeed_ne_fault k)
    | tickTimers | display | soundActive | pushSnapshot => cases h

end

/-- Settles O8, one clause of the raised-by column of R250 after the other. -/
theorem eachOperationRaisesOnlyItsErrors : Obligations.EachOperationRaisesOnlyItsErrors :=
  ⟨fun s => (step_failsOnlyWith s).not_refused, fun s _ => (step_failsOnlyWith s).allowed,
    fun _ _ _ => Block.perform_load_err, fun _ _ => Block.perform_rewind_err, fun _ _ _ => Block.op_of_perform_err⟩

/-- The reply is an error or a refusal. -/
def Reply.Failed : Reply → Prop
  | .err _ | .refused _ => True
  | .ok | .bits _ | .bool _ => False

theorem Block.settle_of_failed {b : Block} {a : Answer} (h : (b.settle a).2.Failed) : (b.settle a).1 = b := by
  cases a with
  | next t => exact h.elim
  | fault | refused => rfl

theorem Block.perform_of_failed {b : Block} {op : Op} (h : (b.perform op).2.Failed) : (b.perform op).1 = b := by
  cases b with
  | created cfg =>
    cases op with
    | load rom => exact settle_of_failed h
    | _ => rfl
  | loaded s =>
    cases op with
    | load | step | setKey | rewind | setSpeed => exact settle_of_failed h
    | tickTimers | display | soundActive | pushSnapshot => exact h.elim

theorem Block.perform_of_err {b : Block} {op : Op} {e : Fault} (h : (b.perform op).2 = .err e) :
    b.perform op = (b, .err e) :=
  Prod.ext (perform_of_failed (h ▸ trivial)) h

theorem Block.perform_of_refused {b : Block} {op : Op} {r : Refusal} (h : (b.perform op).2 = .refused r) :
    b.perform op = (b, .refused r) :=
  Prod.ext (perform_of_failed (h ▸ trivial)) h

/-- Settles O7: a failing operation ends in `Block.settle`, which keeps the block; so the repeated step meets the same
block again (R85). -/
theorem failedOperationsChangeNothing : Obligations.FailedOperationsChangeNothing := by
  refine ⟨fun b op e h => ?error, fun b op r h => ?refusal, fun b e h => ?repeated⟩
  case error => rw [Block.perform_of_err h]
  case refusal => rw [Block.perform_of_refused h]
  case repeated =>
    have hstep := Block.perform_of_err h
    rw [hstep, hstep]

/-! ### The timers' ticks (R262) -/

/-- Both timers lowered by `n`, floored at 0. -/
def State.lowerTimers (n : Nat) (s : State) : State :=
  (s.setDt (BitVec.ofNat 8 (s.ms.dt.toNat - n))).setSt (BitVec.ofNat 8 (s.ms.st.toNat - n))

theorem tickByte_eq (b : Byte) : tickByte b = BitVec.ofNat 8 (b.toNat - 1) := by
  unfold tickByte
  split
  · rfl
  · have hzero : b.toNat = 0 := by omega
    rw [hzero]
    exact BitVec.eq_of_toNat_eq hzero

theorem State.tickTimers_eq (s : State) : s.tickTimers = s.lowerTimers 1 := by
  rw [State.tickTimers, tickByte_eq, tickByte_eq, State.lowerTimers]

theorem ofNat_toNat_sub_sub (b : Byte) (m n : Nat) :
    BitVec.ofNat 8 ((BitVec.ofNat 8 (b.toNat - m)).toNat - n) = BitVec.ofNat 8 (b.toNat - (m + n)) := by
  have hb := b.isLt
  rw [BitVec.toNat_ofNat, Nat.mod_eq_of_lt (by omega), Nat.sub_sub]

theorem State.lowerTimers_zero (s : State) : s.lowerTimers 0 = s := by
  simp [State.lowerTimers, State.setDt, State.setSt]

theorem State.lowerTimers_lowerTimers (m n : Nat) (s : State) :
    (s.lowerTimers m).lowerTimers n = s.lowerTimers (m + n) := by
  simp only [State.lowerTimers, State.setDt, State.setSt, ofNat_toNat_sub_sub]

theorem run_ticks (n : Nat) (s : State) :
    Block.run (List.replicate n .tickTimers) (.loaded s) = .loaded (s.lowerTimers n) := by
  induction n generalizing s with
  | zero => rw [s.lowerTimers_zero]; rfl
  | succ n ih =>
    calc Block.run (List.replicate (n + 1) .tickTimers) (.loaded s)
        = Block.run (List.replicate n .tickTimers) (.loaded s.tickTimers) := rfl
      _ = .loaded ((s.lowerTimers 1).lowerTimers n) := by rw [ih, s.tickTimers_eq]
      _ = .loaded (s.lowerTimers (n + 1)) := by rw [State.lowerTimers_lowerTimers, Nat.add_comm]

/-- Settles O49: one tick lowers both timers by 1, and lowering twice lowers by the sum. -/
theorem ticksDecrementBothTimersToZero : Obligations.TicksDecrementBothTimersToZero :=
  fun s => ⟨congrArg (fun t => (Block.loaded t, Reply.ok)) s.tickTimers_eq, fun n => run_ticks n s⟩

end Sys2Proof.Machine
end

section
/-! Proofs of the family 70_reset_and_hazards.md: what a load writes to memory (R281) and when it is not performed
(R282), the run of the empty ROM (R285), and the jump to its own address (R291). -/

namespace Sys2Proof.Machine

/-! ### The three regions of a loaded memory (R281)

Under a legal configuration the font ends at or below 0x200, where the ROM begins. -/

section
variable {cfg : Config} {rom : List Byte}

theorem font_below_rom (hcfg : cfg.legal = true) : cfg.fontBase.toNat + 80 ≤ 0x200 := by
  simp only [Config.legal, Bool.and_eq_true, decide_eq_true_eq] at hcfg
  exact hcfg.1

theorem Memory.byteAt_image_rom (hcfg : cfg.legal = true) (hrom : rom.length ≤ 3584) {k : Nat} (hk : k < rom.length) :
    (Memory.image cfg rom).byteAt (0x200 + k) = rom[k] := by
  have hin : 0x200 ≤ 0x200 + k ∧ 0x200 + k < 0x200 + rom.length := by omega
  rw [Memory.byteAt_image hcfg hrom, if_pos hin, Nat.add_sub_cancel_left, List.getD_eq_getElem _ _ hk]

theorem Memory.byteAt_image_font (hcfg : cfg.legal = true) (hrom : rom.length ≤ 3584) (k : Fin 80) :
    (Memory.image cfg rom).byteAt (cfg.fontBase.toNat + k.val) = cfg.fontData[k] := by
  have hfont := font_below_rom hcfg
  have hk := k.isLt
  rw [Memory.byteAt_image hcfg hrom, if_neg (by omega), if_pos (by omega), Nat.add_sub_cancel_left]
  simp

theorem Memory.byteAt_image_elsewhere (hcfg : cfg.legal = true) (hrom : rom.length ≤ 3584) {a : Nat}
    (houtRom : a < 0x200 ∨ 0x200 + rom.length ≤ a)
    (houtFont : a < cfg.fontBase.toNat ∨ cfg.fontBase.toNat + 80 ≤ a) : (Memory.image cfg rom).byteAt a = 0 := by
  rw [Memory.byteAt_image hcfg hrom, if_neg (by omega), if_neg (by omega)]

end

/-- Settles O56: the memory a load leaves is `Memory.image`, read in each of its three regions. -/
theorem loadFillsMemory : Obligations.LoadFillsMemory := by
  intro b rom t hrom hcfg hload
  have hmem : t.ms.mem = Memory.image b.config rom := by
    obtain ⟨draws, hloaded⟩ := b.perform_load hrom
    rw [hloaded] at hload
    cases hload
    rfl
  rw [hmem]
  exact ⟨fun _ => Memory.byteAt_image_rom hcfg hrom, Memory.byteAt_image_font hcfg hrom,
    fun _ => Memory.byteAt_image_elsewhere hcfg hrom⟩

/-- Settles O57: a load that does not fit leaves every block, a created one too. -/
theorem oversizedRomIsNotLoaded : Obligations.OversizedRomIsNotLoaded :=
  fun b _ hrom => b.perform_load_tooLarge (Nat.not_le.mpr hrom)

/-! ### Steps on the zero word (41_control_flow.md R100) -/

section
variable {s t : State}

/-- A completed step replaces the live state. -/
theorem perform_step_of_next (h : step s = .next t) : (Block.loaded s).perform .step = (.loaded t, .ok) := by
  simp only [Block.perform, State.perform, h, Block.settle]

theorem step_zeroWord_nop (hpc : PcLegal s.ms.pc.toNat) (hmode : s.cfg.sysMode = .nop) (hword : s.wordAtPc = 0) :
    step s = advance s := by
  have hdecode : decode s.cfg.sysMode s.wordAtPc = .ok (.sys 0) := by
    rw [hmode, hword]
    exact decode_encode_sys (nnn := 0) rfl
  rw [step_of_decode_ok hpc hdecode, exec_sys_nop 0 hmode]

theorem step_zeroWord_unknown (hpc : PcLegal s.ms.pc.toNat) (hmode : s.cfg.sysMode = .unknown)
    (hword : s.wordAtPc = 0) : step s = .fault (.unknownOpcode 0) := by
  have hdecode : decode s.cfg.sysMode s.wordAtPc = .error (.unknown 0) := by
    rw [hmode, hword]
    rfl
  rw [step_of_decode_error hpc hdecode, hword]

end

/-! ### The run of the empty ROM (R285) -/

/-- The block after `n` steps of the empty ROM: the one its load leaves, with pc `n` words further on. -/
def State.emptyRomAt (cfg : Config) (speedK draws n : Nat) : State :=
  (State.afterLoad cfg speedK draws []).withPc (BitVec.ofNat 16 (0x200 + 2 * n))

section
variable {cfg : Config} {speedK draws n : Nat}

theorem State.emptyRomAt_zero : State.emptyRomAt cfg speedK draws 0 = State.afterLoad cfg speedK draws [] := rfl

theorem State.toNat_pc_emptyRomAt (hn : n ≤ 1791) :
    (State.emptyRomAt cfg speedK draws n).ms.pc.toNat = 0x200 + 2 * n :=
  PcLegal.toNat_ofNat ⟨by omega, by omega⟩

theorem State.pcLegal_emptyRomAt (hn : n ≤ 1791) : PcLegal (State.emptyRomAt cfg speedK draws n).ms.pc.toNat := by
  rw [State.toNat_pc_emptyRomAt hn]
  omega

/-- Above the font the memory of the empty ROM is all zero. -/
theorem State.wordAtPc_emptyRomAt (hcfg : cfg.legal = true) (hn : n ≤ 1791) :
    (State.emptyRomAt cfg speedK draws n).wordAtPc = 0 := by
  have hzero (a : Nat) (ha : 0x200 ≤ a) : (State.emptyRomAt cfg speedK draws n).ms.mem.byteAt a = 0 := by
    have hfont := font_below_rom hcfg
    exact Memory.byteAt_image_elsewhere hcfg (Nat.zero_le _) (.inr ha) (.inr (by omega))
  have hpc : 0x200 ≤ (State.emptyRomAt cfg speedK draws n).ms.pc.toNat := (State.pcLegal_emptyRomAt hn).1
  rw [State.wordAtPc, hzero _ hpc, hzero _ (by omega)]
  rfl

theorem step_emptyRomAt (hcfg : cfg.legal = true) (hmode : cfg.sysMode = .nop) (hn : n ≤ 1791) :
    step (State.emptyRomAt cfg speedK draws n) = advance (State.emptyRomAt cfg speedK draws n) :=
  step_zeroWord_nop (State.pcLegal_emptyRomAt hn) hmode (State.wordAtPc_emptyRomAt hcfg hn)

theorem step_emptyRomAt_next (hcfg : cfg.legal = true) (hmode : cfg.sysMode = .nop) (hn : n < 1791) :
    step (State.emptyRomAt cfg speedK draws n) = .next (State.emptyRomAt cfg speedK draws (n + 1)) := by
  rw [step_emptyRomAt hcfg hmode hn.le, advance, State.toNat_pc_emptyRomAt hn.le,
    setPc_legal _ ⟨by omega, by omega⟩]
  rfl

theorem step_emptyRomAt_last (hcfg : cfg.legal = true) (hmode : cfg.sysMode = .nop) :
    step (State.emptyRomAt cfg speedK draws 1791) = .fault (.invalidMemoryAccess 0x1000) := by
  rw [step_emptyRomAt hcfg hmode le_rfl, advance, State.toNat_pc_emptyRomAt le_rfl]
  exact setPc_illegal _ (by decide)

theorem step_emptyRom_unknown (hcfg : cfg.legal = true) (hmode : cfg.sysMode = .unknown) :
    step (State.afterLoad cfg speedK draws []) = .fault (.unknownOpcode 0) := by
  rw [← State.emptyRomAt_zero]
  exact step_zeroWord_unknown (State.pcLegal_emptyRomAt (Nat.zero_le _)) hmode
    (State.wordAtPc_emptyRomAt hcfg (Nat.zero_le _))

theorem run_emptyRom (hcfg : cfg.legal = true) (hmode : cfg.sysMode = .nop) (hn : n ≤ 1791) :
    Block.run (List.replicate n .step) (.loaded (State.afterLoad cfg speedK draws [])) =
      .loaded (State.emptyRomAt cfg speedK draws n) := by
  induction n with
  | zero => rw [State.emptyRomAt_zero]; rfl
  | succ n ih =>
    rw [List.replicate_succ', Block.run_append, ih (by omega), Block.run,
      perform_step_of_next (step_emptyRomAt_next hcfg hmode hn), Block.run]

end

/-- Settles O59: every step of the empty ROM meets the zero word, which SYS passes over until pc is 0xFFE. -/
theorem emptyRomRunsToTheEndOfMemory : Obligations.EmptyRomRunsToTheEndOfMemory := by
  intro cfg speedK draws hcfg
  refine ⟨fun hmode n hn => run_emptyRom hcfg hmode hn, fun hmode => ?last, fun hmode => ?unknown⟩
  case last => rw [run_emptyRom hcfg hmode le_rfl, perform_step_of_fault (step_emptyRomAt_last hcfg hmode)]
  case unknown => rw [perform_step_of_fault (step_emptyRom_unknown hcfg hmode)]

/-! ### The jump to its own address (R102, R291) -/

section
variable {s : State}

/-- What R291 tests, on the word's encoding: `1NNN` with nnn = pc. -/
theorem atJumpToSelf_iff (hpc : PcLegal s.ms.pc.toNat) :
    atJumpToSelf s = true ↔ ∃ nnn : Addr, s.wordAtPc = encode (.jp nnn) ∧ nnn.toNat = s.ms.pc.toNat := by
  simp only [atJumpToSelf, fetchWord_eq_wordAtPc hpc, decide_eq_true_eq]
  constructor
  · rintro ⟨hop, hnnn⟩
    exact ⟨_, (encodeNNN_eq (congrArg BitVec.toNat hop)).symm, hnnn⟩
  · rintro ⟨nnn, hword, hnnn⟩
    obtain ⟨hop, hoperand⟩ := Laws.EncodedFields.jp nnn
    rw [hword, hoperand]
    exact ⟨hop, hnnn⟩

theorem step_atJumpToSelf (hpc : PcLegal s.ms.pc.toNat) (hjump : atJumpToSelf s = true) : step s = .next s := by
  obtain ⟨nnn, hword, hnnn⟩ := (atJumpToSelf_iff hpc).mp hjump
  have hdecode : decode s.cfg.sysMode s.wordAtPc = .ok (.jp nnn) := by
    rw [hword]
    exact decode_encode (i := .jp nnn) rfl nofun _
  calc step s = setPc nnn.toNat s := step_of_decode_ok hpc hdecode
    _ = setPc s.ms.pc.toNat s := by rw [hnnn]
    _ = .next s := setPc_toNat_legal s hpc

theorem endOfStep_atJumpToSelf (hpc : PcLegal s.ms.pc.toNat) (hjump : atJumpToSelf s = true) :
    endOfStep s = some .jumpToSelf := by
  simp only [endOfStep, step_atJumpToSelf hpc hjump, hjump, if_true]

end

/-- An operation that leaves a block leaves it any number of times. -/
theorem Block.run_replicate_of_fixed {b : Block} {op : Op} (h : (b.perform op).1 = b) (n : Nat) :
    Block.run (List.replicate n op) b = b := by
  induction n with
  | zero => rfl
  | succ n ih => rw [List.replicate_succ, Block.run, h, ih]

/-- The operation that ends the run is the last one performed (R291). -/
theorem Block.runToEnd_cons_of_endOf {b : Block} {op : Op} {e : RunEnd} (ops : List Op) (h : b.endOf op = some e) :
    Block.runToEnd (op :: ops) b = ((b.perform op).1, some e) := by
  simp only [Block.runToEnd, h]

/-- Settles O60: the executed jump writes pc with its own value, and with that first step the run has ended. -/
theorem jumpToSelfIsAFixedPoint : Obligations.JumpToSelfIsAFixedPoint := by
  intro s hpc hjump
  have hstep := step_atJumpToSelf hpc hjump
  have hperform := perform_step_of_next hstep
  refine ⟨hstep, not_runEnded_of_no_step nofun, fun n hn => ?ended, fun n => ?fixed⟩
  case ended =>
    obtain ⟨m, rfl⟩ := Nat.exists_eq_add_of_le' hn
    have hend : (Block.loaded s).endOf .step = some .jumpToSelf := endOfStep_atJumpToSelf hpc hjump
    rw [List.replicate_succ, Block.runToEnd_cons_of_endOf _ hend, hperform]
  case fixed => exact Block.run_replicate_of_fixed (by rw [hperform]) n

end Sys2Proof.Machine
end
